-- ==== Sys2Proof/Word.lean ====
section
/-!
DEFINITION. The word types of SYNC1 (`00_scope.md` R7, R10, R11): command words and CSRs of 32 bits
(`CMDW`, `CSRW`), 16-bit components and taps (`SAMPW`, `COEFW`), bytes of the memories' byte view, and the
complex value as a pair of 16-bit components.
-/

namespace Sys2Proof

/-- A 32-bit word: a command (`CMDW` = 32), a CSR read value (`CSRW` = 32), a word of IN or OUT. -/
abbrev Word := BitVec 32

/-- A 16-bit word: an immediate, a staged CSR, an IN or OUT address (`ADDRW` = 16), a word of COEF
(`COEFW` = 16), one component of a complex value (`SAMPW` = 16). -/
abbrev Half := BitVec 16

/-- A byte of a memory, in the byte view of `20_memory.md` R86. -/
abbrev Byte := BitVec 8

/-- A complex value (R11): two Q3.13 components, each the 16 bits of a two's complement integer. -/
structure Cplx where
  re : Half
  im : Half
  deriving DecidableEq, Repr

/-- The complex value (0, 0). -/
def Cplx.zero : Cplx := ⟨0, 0⟩

end Sys2Proof
end

