-- ==== Sys2Proof/Syntax.lean ====
section
/-!
DEFINITION. The eight commands of `30_encoding.md` R114 as `Instr`, one constructor per row of the opcode
table; the four fields and four formats of a command word (R111, R112); the names of the 40 control and
status registers (`10_state.md` R34); the assembler's commands and pseudo-commands (R119, R120).
-/

namespace Sys2Proof

/-- A command (R114). The operands are the raw fields `a` and `imm` of R111, which no command sign-extends,
scales or shifts (R113). -/
inductive Instr where
  /-- NOP, R140. -/
  | nop
  /-- WRCSR, R141: CSR address and 16-bit value. -/
  | wrcsr (a : BitVec 8) (imm : Half)
  /-- RDCSR, R143: CSR address. -/
  | rdcsr (a : BitVec 8)
  /-- CREATE, R144. -/
  | create
  /-- SETBW, R149: the loop bandwidth in Q0.16. -/
  | setbw (imm : Half)
  /-- EXEC, R170: the number of input samples of the block. -/
  | exec (imm : Half)
  /-- DESTROY, R151. -/
  | destroy
  /-- RESET, R152. -/
  | reset
  deriving DecidableEq, Repr

/-- The mnemonics of R114, one per opcode in use. -/
inductive Opcode where
  | nop | wrcsr | rdcsr | create | setbw | exec | destroy | reset
  deriving DecidableEq, Repr

/-- The four formats of R112. -/
inductive Format where
  /-- `a` and `imm` must be 0. -/
  | z
  /-- `a` must be 0, `imm` is used. -/
  | i
  /-- `a` is used, `imm` must be 0. -/
  | a
  /-- `a` and `imm` are used. -/
  | ai
  deriving DecidableEq, Repr

/-- The four fields of a command word (R111). -/
structure Fields where
  op  : BitVec 4
  rsv : BitVec 4
  a   : BitVec 8
  imm : Half
  deriving DecidableEq, Repr

/-- The control and status registers of the map of R34. -/
inductive Csr where
  | cfgK | cfgM | cfgBeta | cfgShape | cfgMod | cfgDecim | cfgBw | inBase | outBase | outCap
  | actK | actM | actBeta | actShape | actMod | actDecim | bw | ntaps | stepNom
  | status | errcode | errinfo | errcmd | errcnt
  | agcGain | dph | tau | tint | tv | half | yon | ymid | theta | freq | symcnt | outlen
  | w0 | w1 | w2 | w3
  deriving DecidableEq, Repr

/-- A CSR operand of the assembler (R119): a name of R34 or an address as a number. -/
inductive CsrOperand where
  | name (c : Csr)
  | addr (n : Nat)
  deriving DecidableEq, Repr

/-- A line of the assembler (R119, R120). The operands are the numbers as written, of any size: the
assembler refuses one that does not fit rather than truncate it. -/
inductive AsmCmd where
  | nop
  | wrcsr (c : CsrOperand) (imm : Nat)
  | rdcsr (c : CsrOperand)
  | create
  | setbw (imm : Nat)
  | exec (n : Nat)
  | destroy
  | reset
  /-- `.word <number>`: a raw command word. -/
  | word (n : Nat)
  /-- Pseudo-command `config` (R120). -/
  | config (k m beta shape mod decim bw : Nat)
  /-- Pseudo-command `buffers` (R120). -/
  | buffers (inBase outBase cap : Nat)
  /-- Pseudo-command `run` (R120). -/
  | run (inBase outBase cap n : Nat)
  deriving DecidableEq, Repr

end Sys2Proof
end

