-- ==== Sys2Proof/Decode.lean ====
section
/-!
DEFINITION. The decoder of `30_encoding.md` R111 to R115, total on the 2^32 words, and after it the encoder.
A command is one 32-bit word and is not fetched from a memory (R110, `20_memory.md` R86), so there is no byte
order here: bit 0 of a word is its least significant bit (R9).
-/

namespace Sys2Proof

/-- The opcode map of R114: opcodes 8 to 15 are reserved. -/
def Opcode.ofBits (op : BitVec 4) : Option Opcode :=
  match op.toNat with
  | 0 => some .nop
  | 1 => some .wrcsr
  | 2 => some .rdcsr
  | 3 => some .create
  | 4 => some .setbw
  | 5 => some .exec
  | 6 => some .destroy
  | 7 => some .reset
  | _ => none

/-- The opcode bits of a mnemonic (R114). -/
def Opcode.bits : Opcode → BitVec 4
  | .nop => 0
  | .wrcsr => 1
  | .rdcsr => 2
  | .create => 3
  | .setbw => 4
  | .exec => 5
  | .destroy => 6
  | .reset => 7

/-- The format of each command (R112). -/
def Opcode.format : Opcode → Format
  | .nop | .create | .destroy | .reset => .z
  | .setbw | .exec => .i
  | .rdcsr => .a
  | .wrcsr => .ai

/-- Whether a format uses the field `a` (R112). -/
def Format.usesA : Format → Bool
  | .a | .ai => true
  | .z | .i => false

/-- Whether a format uses the field `imm` (R112). -/
def Format.usesImm : Format → Bool
  | .i | .ai => true
  | .z | .a => false

/-- Why a command word is illegal (R115), by name. -/
inductive DecodeError where
  /-- `op >= 8`, whatever the other fields hold (info 1). -/
  | reservedOpcode
  /-- `op <= 7` and `rsv`, or a field the format says must be 0, is not 0 (info 2). -/
  | mustBeZero
  deriving DecidableEq, Repr

/-- The tests of R115 on the four fields, in its order: `none` for a legal word. -/
def Fields.illegal (f : Fields) : Option DecodeError :=
  match Opcode.ofBits f.op with
  | none => some .reservedOpcode
  | some m =>
    if f.rsv ≠ 0 then some .mustBeZero
    else if m.format.usesA = false ∧ f.a ≠ 0 then some .mustBeZero
    else if m.format.usesImm = false ∧ f.imm ≠ 0 then some .mustBeZero
    else none

/-- The fields of a word (R111): `op = w[31:28]`, `rsv = w[27:24]`, `a = w[23:16]`, `imm = w[15:0]`. -/
def fieldsOf (w : Word) : Fields where
  op  := w.extractLsb' 28 4
  rsv := w.extractLsb' 24 4
  a   := w.extractLsb' 16 8
  imm := w.extractLsb' 0 16

/-- The command of a mnemonic with its operand fields (R114). -/
def Opcode.build (m : Opcode) (a : BitVec 8) (imm : Half) : Instr :=
  match m with
  | .nop => .nop
  | .wrcsr => .wrcsr a imm
  | .rdcsr => .rdcsr a
  | .create => .create
  | .setbw => .setbw imm
  | .exec => .exec imm
  | .destroy => .destroy
  | .reset => .reset

/-- Decoding (R115): a word is exactly one command, or illegal for a named reason. -/
def decode (w : Word) : Except DecodeError Instr :=
  let f := fieldsOf w
  match f.illegal, Opcode.ofBits f.op with
  | some e, _ => .error e
  | none, some m => .ok (m.build f.a f.imm)
  | none, none => .error .reservedOpcode

/-- The info value of an illegal word (R115, `60_exceptions.md` R243). -/
def DecodeError.info : DecodeError → Word
  | .reservedOpcode => 1
  | .mustBeZero => 2

/-- The mnemonic of a command. -/
def Instr.opcode : Instr → Opcode
  | .nop => .nop
  | .wrcsr _ _ => .wrcsr
  | .rdcsr _ => .rdcsr
  | .create => .create
  | .setbw _ => .setbw
  | .exec _ => .exec
  | .destroy => .destroy
  | .reset => .reset

/-- The four fields of a command's word (R111, R114): `rsv` is 0 and so is a field its format does not
use. -/
def Instr.fields : Instr → Fields
  | .nop => ⟨Opcode.bits .nop, 0, 0, 0⟩
  | .wrcsr a imm => ⟨Opcode.bits .wrcsr, 0, a, imm⟩
  | .rdcsr a => ⟨Opcode.bits .rdcsr, 0, a, 0⟩
  | .create => ⟨Opcode.bits .create, 0, 0, 0⟩
  | .setbw imm => ⟨Opcode.bits .setbw, 0, 0, imm⟩
  | .exec imm => ⟨Opcode.bits .exec, 0, 0, imm⟩
  | .destroy => ⟨Opcode.bits .destroy, 0, 0, 0⟩
  | .reset => ⟨Opcode.bits .reset, 0, 0, 0⟩

/-- The word of four fields (R111). -/
def Fields.word (f : Fields) : Word := f.op ++ f.rsv ++ f.a ++ f.imm

/-- The word of a command (R114, R119). -/
def encode (i : Instr) : Word := i.fields.word

/-- The command the decoder reads from an instruction of the opcode table whose bits are `w`: every row is
one 32-bit word, bit 0 its least significant bit. -/
def decodeTableWord (nbits w : Nat) : Option Instr :=
  match decode (BitVec.ofNat 32 (w % 2 ^ nbits)) with
  | .ok i => some i
  | .error _ => none

end Sys2Proof
end

