-- ==== Sys2Proof/Config.lean ====
section
/-!
DEFINITION. The implementation parameters of `00_scope.md` R7 that the rules use as numbers, and the free
values: what the memories hold when power is applied, which the spec leaves open (`10_state.md` R58,
`93_implementation_defined.md` U1).
-/

namespace Sys2Proof.Config

/-- `NTAPS_MAX` (R7): words of COEF and entries of the delay line. -/
abbrev ntapsMax : Nat := 512

/-- `GAIN_ONE` (R7): AGC gain 1.0 in Q8.16. -/
abbrev gainOne : Nat := 0x010000

/-- `GAIN_MIN` (R7): lower limit of the AGC gain. -/
abbrev gainMin : Nat := 0x000100

/-- `GAIN_MAX` (R7): upper limit of the AGC gain. -/
abbrev gainMax : Nat := 0xFFFFFF

/-- `AGC_SHIFT` (R7): the AGC tracking constant is 2^-8. -/
abbrev agcShift : Nat := 8

/-- `ONE_T` (R7): one MF-output period in the timing format Q8.24. -/
abbrev oneT : Nat := 0x01000000

/-- `VSHIFT` (R7): the timing loop moves the step by at most 1/32 of its nominal value. -/
abbrev vShift : Nat := 5

/-- `PHW` (R7): width of the NCO phase. -/
abbrev phW : Nat := 32

/-- `LUTB` (R7): the sine table has 2^10 phase points per turn. -/
abbrev lutB : Nat := 10

/-- `BW_DEFAULT` (R7): 0.02 in Q0.16, rounded to nearest. -/
abbrev bwDefault : Nat := 1311

/-- FREE VALUE (log 1): the contents of COEF when power is applied, any value (R58, U1). Byte `a` of the
memory is bits `8*a + 7` to `8*a` of this number. -/
opaque coefAtPowerOn : Nat

/-- FREE VALUE (log 1): the contents of IN when power is applied, any value (R58, U1). -/
opaque inAtPowerOn : Nat

/-- FREE VALUE (log 1): the contents of OUT when power is applied, any value (R58, U1). -/
opaque outAtPowerOn : Nat

end Sys2Proof.Config
end

