-- ==== Sys2Proof/Machine/State.lean ====
section
/-!
DEFINITION. The state of SYNC1 (`10_state.md` R34, R57, R58, R60): the staged and active configuration, the
status and error registers, the synchronizer state with the delay line HIST, the memories COEF, IN and OUT;
and, as the model's own fields, the host's side of the two ports (`20_memory.md` R97, `30_encoding.md` R116).
Also the reset state (R61, `70_reset_and_hazards.md` R280, R282).
-/

namespace Sys2Proof.Machine

/-- Why SYNC1 could stop: there is no such reason. An error is a next state (`60_exceptions.md` R244, R246),
arithmetic and memory never fail (R249), and SYNC1 has no state in which it stops accepting commands
(`93_implementation_defined.md`). No constructor, so nothing raises one: safe, and log 15 says so. -/
inductive Fault
  deriving DecidableEq, Repr

/-- Why the model could have no meaning for a command. -/
inductive Refusal where
  /-- Raised by an arm of `exec` whose command has no meaning yet, never by a meaning. Safe. No arm raises
  it: every command has its meaning. -/
  | notModelled (mnemonic : String)
  deriving DecidableEq, Repr

/-- The four errors (`60_exceptions.md` R240). -/
inductive ErrorKind where
  | configurationError
  | capacityError
  | illegalCommand
  | notCreated
  deriving DecidableEq, Repr

/-- The staged configuration, CSRs 0x00 to 0x09 (R35 to R42), written by WRCSR and reset alone. -/
structure Staged where
  k       : Half
  m       : Half
  beta    : Half
  shape   : Half
  mod     : Half
  decim   : Half
  bw      : Half
  inBase  : Half
  outBase : Half
  outCap  : Half
  deriving DecidableEq, Repr

/-- The active configuration, CSRs 0x10 to 0x18 (R43 to R45, R48), that the datapath reads. -/
structure Active where
  k       : Half
  m       : Half
  beta    : Half
  shape   : Half
  mod     : Half
  decim   : Half
  bw      : Half
  ntaps   : BitVec 10
  stepNom : Word
  deriving DecidableEq, Repr

/-- The flag `ERR` (R32) and the error registers, CSRs 0x21 to 0x24 (R46). -/
structure ErrRegs where
  err  : Bool
  code : BitVec 4
  info : Word
  cmd  : Word
  cnt  : Word
  deriving DecidableEq, Repr

/-- The synchronizer state, CSRs 0x30 to 0x43 without OUTLEN (R47 to R56), and the delay line HIST (R57),
newest entry first. `tau` and `theta` are unsigned, `tint`, `tv` and `freq` two's complement. -/
structure Sync where
  gain   : BitVec 24
  dph    : BitVec 8
  hist   : List Cplx
  w0     : Cplx
  w1     : Cplx
  w2     : Cplx
  w3     : Cplx
  tau    : Word
  tint   : Word
  tv     : Word
  half   : Bool
  yon    : Cplx
  ymid   : Cplx
  theta  : Word
  freq   : Word
  symcnt : Word
  deriving DecidableEq, Repr

/-- A host-visible memory in the byte view of `20_memory.md` R86: what it held when power was applied, and
the bytes that differ from it, by rising address (log 1, log 10). -/
structure Memory where
  /-- The contents at power-on: byte `a` is bits `8*a + 7` to `8*a`. -/
  powerOn : Nat
  /-- The bytes written since, less those equal to the power-on contents, addresses strictly rising. -/
  cells   : List Host.Cell
  deriving DecidableEq, Repr

/-- A response (`30_encoding.md` R116): 4 bits of status, 32 bits of data. -/
structure Response where
  status : BitVec 4
  data   : Word
  deriving DecidableEq, Repr

/-- A word the host has read from a memory (`HostRead` of `20_memory.md` R97). -/
inductive ReadWord where
  | coef (v : Half)
  | sample (v : Word)
  | symbol (v : Word)
  deriving DecidableEq, Repr

/-- One move of the host (`20_memory.md` R97) or of the reset input (`70_reset_and_hazards.md` R280). An
address has the width of its space (R80), so no address can be wrong. -/
inductive HostMove where
  /-- `Issue(w)`: give the command word `w` and take its response. -/
  | issue (w : Word)
  /-- `HostWrite(COEF, a, v)`. -/
  | writeCoef (a : BitVec 9) (v : Half)
  /-- `HostWrite(IN, a, v)`. -/
  | writeIn (a : Half) (v : Word)
  /-- `HostWrite(OUT, a, v)`. -/
  | writeOut (a : Half) (v : Word)
  /-- `HostRead(COEF, a)`. -/
  | readCoef (a : BitVec 9)
  /-- `HostRead(IN, a)`. -/
  | readIn (a : Half)
  /-- `HostRead(OUT, a)`. -/
  | readOut (a : Half)
  /-- The reset input is asserted and released while no command executes (R280). -/
  | hardwareReset
  /-- The reset input is asserted while the command `w` executes (R280, U9): the command is abandoned when
  the first `n` symbols of its block, or all of them if there are fewer, stand in OUT (log 8). -/
  | resetDuring (w : Word) (n : Nat)
  deriving DecidableEq, Repr

/-- The state of SYNC1 and of the host at its ports. -/
structure State where
  /-- Staged configuration, R35 to R42. -/
  cfg       : Staged
  /-- Active configuration, R43 to R45. -/
  act       : Active
  /-- The flag `CREATED`, `STATUS[0]` (R32). -/
  created   : Bool
  /-- `ERR` and the error registers, R46. -/
  errs      : ErrRegs
  /-- Synchronizer state and HIST, R47 to R57. -/
  sync      : Sync
  /-- `OUTLEN`, R55. -/
  outLen    : Half
  /-- COEF, R81. -/
  coefMem   : Memory
  /-- IN, R82. -/
  inMem     : Memory
  /-- OUT, R82. -/
  outMem    : Memory
  /-- The model's own: the host's coming moves, the next one first (log 4). -/
  pending   : List HostMove
  /-- The model's own: the responses given so far, the oldest first (R116, R59; log 4). -/
  responses : List Response
  /-- The model's own: the words the host has read so far, the oldest first (R97; log 4). -/
  hostReads : List ReadWord
  deriving DecidableEq, Repr

/-- The staged configuration after reset (R61, R282). -/
def Staged.reset : Staged where
  k       := 2
  m       := 7
  beta    := 8192
  shape   := 0
  mod     := 2
  decim   := 1
  bw      := BitVec.ofNat 16 Config.bwDefault
  inBase  := 0
  outBase := 0
  outCap  := 0

/-- The active configuration after reset (R61, R282). -/
def Active.reset : Active where
  k       := 0
  m       := 0
  beta    := 0
  shape   := 0
  mod     := 0
  decim   := 0
  bw      := 0
  ntaps   := 0
  stepNom := 0

/-- `ERR` and the error registers after reset (R61, R282). -/
def ErrRegs.reset : ErrRegs where
  err  := false
  code := 0
  info := 0
  cmd  := 0
  cnt  := 0

/-- The synchronizer state of a new instance and, but for HIST, after reset (R61, R283). -/
def Sync.initial : Sync where
  gain   := BitVec.ofNat 24 Config.gainOne
  dph    := 0
  hist   := List.replicate Config.ntapsMax Cplx.zero
  w0     := Cplx.zero
  w1     := Cplx.zero
  w2     := Cplx.zero
  w3     := Cplx.zero
  tau    := 0
  tint   := 0
  tv     := 0
  half   := false
  yon    := Cplx.zero
  ymid   := Cplx.zero
  theta  := 0
  freq   := 0
  symcnt := 0

/-- The machine right after power-on and reset (R280, R282) with the memories holding `coef`, `inp` and
`out`, which the spec leaves free (R58, U1). HIST is all zero, as R57 allows (log 2). -/
def State.atPowerOn (coef inp out : Nat) : State where
  cfg       := Staged.reset
  act       := Active.reset
  created   := false
  errs      := ErrRegs.reset
  sync      := Sync.initial
  outLen    := 0
  coefMem   := ⟨coef, []⟩
  inMem     := ⟨inp, []⟩
  outMem    := ⟨out, []⟩
  pending   := []
  responses := []
  hostReads := []

/-- The machine right after reset: every CSR at its reset value, the memories at a free value (log 1). -/
def State.reset : State :=
  State.atPowerOn Config.coefAtPowerOn Config.inAtPowerOn Config.outAtPowerOn

end Sys2Proof.Machine
end

