-- ==== Sys2Proof/Machine/Flags.lean ====
section
/-!
DEFINITION. The three flags of SYNC1 (`10_state.md` R32). No arithmetic sets a flag: saturation is silent.
-/

namespace Sys2Proof.Machine

/-- A flag as a bit. -/
def flagBit (b : Bool) : BitVec 1 := BitVec.ofBool b

/-- `STATUS` (R32, R46): bit 0 `CREATED`, bit 1 `ERR`, bits 31:2 always 0. -/
def statusWord (created err : Bool) : Word :=
  (0 : BitVec 30) ++ flagBit err ++ flagBit created

/-- `HALF` as its CSR reads (R34, R52): bit 0. -/
def halfWord (half : Bool) : Word := (0 : BitVec 31) ++ flagBit half

/-- `CREATED` set by a successful CREATE (R146). -/
def State.setCreated (s : State) : State := { s with created := true }

/-- `CREATED` cleared by DESTROY (R151). -/
def State.clearCreated (s : State) : State := { s with created := false }

/-- `HALF` after an on-time strobe (R206). -/
def Sync.setHalf (y : Sync) : Sync := { y with half := true }

/-- `HALF` after a mid strobe (R207). -/
def Sync.clearHalf (y : Sync) : Sync := { y with half := false }

end Sys2Proof.Machine
end

