-- ==== Sys2Proof/Machine/Operands.lean ====
section
/-!
DEFINITION. The operand forms and the integer laws of `00_scope.md` R9 to R12: a field or a register as a
signed or unsigned integer, the floor shift, the narrowing functions, packed complex values.
-/

namespace Sys2Proof.Machine

/-- `v >> n` of R12: floor(v / 2^n), rounding toward minus infinity. -/
def asr (v : Int) (n : Nat) : Int := v / 2 ^ n

/-- `v << n` of R12. -/
def shl (v : Int) (n : Nat) : Int := v * 2 ^ n

/-- `clamp(v, lo, hi)` of R12. -/
def clamp (v lo hi : Int) : Int := if v < lo then lo else if v > hi then hi else v

/-- `sat16(v)` of R12. -/
def sat16 (v : Int) : Int := clamp v (-32768) 32767

/-- `sat32(v)` of R12. -/
def sat32 (v : Int) : Int := clamp v (-2147483648) 2147483647

/-- `sgn(v)` of R12: zero counts as positive. -/
def sgn (v : Int) : Int := if v < 0 then -1 else 1

/-- `sext_16`, the integer a 16-bit two's complement field stands for (R12). -/
def sext16 (h : Half) : Int := h.toInt

/-- `sext_32`, the integer a signed 32-bit register stands for (R12, R33). -/
def sext32 (w : Word) : Int := w.toInt

/-- `zext`, a field read as an unsigned integer (R12, R113). -/
def zext {n : Nat} (w : BitVec n) : Int := (w.toNat : Int)

/-- A 16-bit component holding an integer, which the rules have narrowed to 16 bits before. -/
def half16 (v : Int) : Half := BitVec.ofInt 16 v

/-- A 32-bit register holding an integer modulo 2^32. -/
def word32 (v : Int) : Word := BitVec.ofInt 32 v

/-- `pack(c)` of R11: the imaginary part in bits 31:16, the real part in bits 15:0. -/
def pack (c : Cplx) : Word := c.im ++ c.re

/-- `unpack(w)` of R11. -/
def unpack (w : Word) : Cplx := ⟨w.extractLsb' 0 16, w.extractLsb' 16 16⟩

/-- A complex value from two integers, each saturated to a component (R12). -/
def satCplx (re im : Int) : Cplx := ⟨half16 (sat16 re), half16 (sat16 im)⟩

/-- The operand `imm` of EXEC, a number of samples (R113). -/
def immCount (imm : Half) : Nat := imm.toNat

end Sys2Proof.Machine
end

