-- ==== Sys2Proof/Machine/Ops.lean ====
section
/-!
DEFINITION. The named operations every command shares: the memories and their access primitives
(`20_memory.md` R80 to R88), the response of a command (`30_encoding.md` R116), the entry of an error
(`60_exceptions.md` R244), reset (`70_reset_and_hazards.md` R280). There is no return from an error beside
its entry: an error transfers control nowhere (R250).
-/

namespace Sys2Proof.Machine

/-! ## Bytes of a memory -/

/-- What an address reads as that nothing has written with another value: the power-on contents (R58). -/
def Memory.blank (powerOn : Nat) (a : Nat) : Byte := BitVec.ofNat 8 (powerOn >>> (8 * a))

/-- The byte listed at an address, if any. -/
def cellAt : List Host.Cell → Nat → Option Byte
  | [], _ => none
  | (b, v) :: t, a => if a = b then some v else cellAt t a

/-- The list with the byte at `a` set to `v`: addresses stay rising, and no entry equals the power-on byte
of its address. -/
def setCell (powerOn : Nat) : List Host.Cell → Nat → Byte → List Host.Cell
  | [], a, v => if v = Memory.blank powerOn a then [] else [(a, v)]
  | (b, x) :: t, a, v =>
    if a < b then (if v = Memory.blank powerOn a then (b, x) :: t else (a, v) :: (b, x) :: t)
    else if a = b then (if v = Memory.blank powerOn a then t else (a, v) :: t)
    else (b, x) :: setCell powerOn t a v

/-- One byte of a memory, by byte address (R86). It cannot fail and changes nothing (R83, R88). -/
def Memory.readByte (m : Memory) (a : Nat) : Byte := (cellAt m.cells a).getD (Memory.blank m.powerOn a)

/-- One byte of a memory set (R84, R88). -/
def Memory.writeByte (m : Memory) (a : Nat) (v : Byte) : Memory :=
  { m with cells := setCell m.powerOn m.cells a v }

/-- Whether the addresses of a list are strictly rising. -/
def risingCells : List Host.Cell → Bool
  | [] => true
  | [_] => true
  | (a, _) :: (b, y) :: t => decide (a < b) && risingCells ((b, y) :: t)

/-- The canonical form of a memory of `size` bytes: addresses strictly rising and below `size`, and no entry
equal to what its address reads as unlisted. -/
def Memory.wf (size : Nat) (m : Memory) : Bool :=
  risingCells m.cells && m.cells.all fun c => decide (c.1 < size) && decide (c.2 ≠ Memory.blank m.powerOn c.1)

/-- COEF in bytes: 512 words of 16 bits (R80). -/
def coefBytes : Nat := 1024

/-- IN and OUT in bytes: 65536 words of 32 bits each (R80). -/
def sampleBytes : Nat := 262144

/-! ## Words of a memory: the access primitives -/

/-- The 16-bit word at word address `a`: byte 0 of the little-endian view is bits 7:0 (R86). -/
def Memory.readHalf (m : Memory) (a : Nat) : Half := m.readByte (2 * a + 1) ++ m.readByte (2 * a)

/-- The 16-bit word at word address `a` stored (R86). -/
def Memory.writeHalf (m : Memory) (a : Nat) (v : Half) : Memory :=
  (m.writeByte (2 * a) (v.extractLsb' 0 8)).writeByte (2 * a + 1) (v.extractLsb' 8 8)

/-- The 32-bit word at word address `a` (R86). -/
def Memory.readWord (m : Memory) (a : Nat) : Word :=
  m.readByte (4 * a + 3) ++ m.readByte (4 * a + 2) ++ m.readByte (4 * a + 1) ++ m.readByte (4 * a)

/-- The 32-bit word at word address `a` stored (R86). -/
def Memory.writeWord (m : Memory) (a : Nat) (v : Word) : Memory :=
  (((m.writeByte (4 * a) (v.extractLsb' 0 8)).writeByte (4 * a + 1) (v.extractLsb' 8 8)).writeByte
    (4 * a + 2) (v.extractLsb' 16 8)).writeByte (4 * a + 3) (v.extractLsb' 24 8)

/-- `MemRead(COEF, j)` (R83): the tap as a signed integer. The address has the 9 bits of the space. -/
def tapAt (coef : Memory) (j : Nat) : Int := sext16 (coef.readHalf (j % 512))

/-- `MemRead(IN, (base + i) mod 65536)` (R83, R85): a complex sample. -/
def sampleAt (inp : Memory) (base : Half) (i : Nat) : Cplx := unpack (inp.readWord ((base.toNat + i) % 65536))

/-- `MemRead(HIST, j)` (R83): an entry of the delay line. -/
def histAt (hist : List Cplx) (j : Nat) : Cplx := hist.getD j Cplx.zero

/-- `MemWrite(OUT, (base + j) mod 65536, r)` for the symbols `r` of a block, the `n`-th and on, in order
(R84, R85, R173). -/
def storeSymbols (out : Memory) (base : Half) (n : Nat) : List Cplx → Memory
  | [] => out
  | r :: t => storeSymbols (out.writeWord ((base.toNat + n) % 65536) (pack r)) base (n + 1) t

/-! ## Responses and errors -/

/-- The code of an error (`60_exceptions.md` R240). -/
def ErrorKind.code : ErrorKind → BitVec 4
  | .configurationError => 1
  | .capacityError => 2
  | .illegalCommand => 3
  | .notCreated => 4

/-- `respond(OK, data)` (R116): the command ends without error. -/
def State.respond (s : State) (data : Word) : State :=
  { s with responses := s.responses ++ [⟨0, data⟩] }

/-- `raise <Error>(info)` in a command with word `w`: error entry, R244. The five error registers and the
response are all it changes (R245). -/
def State.raise (s : State) (e : ErrorKind) (info w : Word) : State :=
  { s with
    errs := { err := true, code := e.code, info := info, cmd := w, cnt := s.errs.cnt + 1 }
    responses := s.responses ++ [⟨e.code, info⟩] }

/-- A command `i` ends with an error; its word is the one that decodes to it (log 9). -/
def State.fail (s : State) (e : ErrorKind) (info : Word) (i : Instr) : State :=
  s.raise e info (encode i)

/-- A word that is no command is answered by IllegalCommand (R115, R243). -/
def State.illegalWord (s : State) (e : DecodeError) (w : Word) : State :=
  s.raise .illegalCommand e.info w

/-! ## Reset -/

/-- Every CSR at its reset value (R280, R281, R152). COEF, IN and OUT are not changed; HIST is left as it
was, as R281 allows (log 3). -/
def State.resetCsrs (s : State) : State :=
  { s with
    cfg     := Staged.reset
    act     := Active.reset
    created := false
    errs    := ErrRegs.reset
    sync    := { Sync.initial with hist := s.sync.hist }
    outLen  := 0 }

end Sys2Proof.Machine
end

