-- ==== Sys2Proof/Machine/Csr.lean ====
section
/-!
DEFINITION. The CSR file (`10_state.md` R33, R34): the address of each register, what it reads as, and the
write of a staged register.
-/

namespace Sys2Proof.Machine

/-- The registers of the map, in the order of R34. -/
def csrMap : List Csr :=
  [.cfgK, .cfgM, .cfgBeta, .cfgShape, .cfgMod, .cfgDecim, .cfgBw, .inBase, .outBase, .outCap] ++
  [.actK, .actM, .actBeta, .actShape, .actMod, .actDecim, .bw, .ntaps, .stepNom] ++
  [.status, .errcode, .errinfo, .errcmd, .errcnt] ++
  [.agcGain, .dph, .tau, .tint, .tv, .half, .yon, .ymid, .theta, .freq, .symcnt, .outlen] ++
  [.w0, .w1, .w2, .w3]

/-- The address of a register (R34). -/
def csrAddr : Csr → BitVec 8
  | .cfgK => 0x00
  | .cfgM => 0x01
  | .cfgBeta => 0x02
  | .cfgShape => 0x03
  | .cfgMod => 0x04
  | .cfgDecim => 0x05
  | .cfgBw => 0x06
  | .inBase => 0x07
  | .outBase => 0x08
  | .outCap => 0x09
  | .actK => 0x10
  | .actM => 0x11
  | .actBeta => 0x12
  | .actShape => 0x13
  | .actMod => 0x14
  | .actDecim => 0x15
  | .bw => 0x16
  | .ntaps => 0x17
  | .stepNom => 0x18
  | .status => 0x20
  | .errcode => 0x21
  | .errinfo => 0x22
  | .errcmd => 0x23
  | .errcnt => 0x24
  | .agcGain => 0x30
  | .dph => 0x31
  | .tau => 0x32
  | .tint => 0x33
  | .tv => 0x34
  | .half => 0x35
  | .yon => 0x36
  | .ymid => 0x37
  | .theta => 0x38
  | .freq => 0x39
  | .symcnt => 0x3A
  | .outlen => 0x3B
  | .w0 => 0x40
  | .w1 => 0x41
  | .w2 => 0x42
  | .w3 => 0x43

/-- The register at an address, if the address is implemented (R33, R34). -/
def csrAt (a : BitVec 8) : Option Csr := csrMap.find? fun c => csrAddr c = a

/-- The access class `RW` (R33): exactly the addresses 0x00 to 0x09 (R141). -/
def csrWritable (c : Csr) : Bool := csrAddr c ≤ 0x09

/-- The 32-bit value a register reads as (R33): narrow registers zero-extended, `TINT`, `TV` and `FREQ` as
two's complement, complex registers packed. Reading has no side effect. -/
def State.readCsr (s : State) : Csr → Word
  | .cfgK => s.cfg.k.setWidth 32
  | .cfgM => s.cfg.m.setWidth 32
  | .cfgBeta => s.cfg.beta.setWidth 32
  | .cfgShape => s.cfg.shape.setWidth 32
  | .cfgMod => s.cfg.mod.setWidth 32
  | .cfgDecim => s.cfg.decim.setWidth 32
  | .cfgBw => s.cfg.bw.setWidth 32
  | .inBase => s.cfg.inBase.setWidth 32
  | .outBase => s.cfg.outBase.setWidth 32
  | .outCap => s.cfg.outCap.setWidth 32
  | .actK => s.act.k.setWidth 32
  | .actM => s.act.m.setWidth 32
  | .actBeta => s.act.beta.setWidth 32
  | .actShape => s.act.shape.setWidth 32
  | .actMod => s.act.mod.setWidth 32
  | .actDecim => s.act.decim.setWidth 32
  | .bw => s.act.bw.setWidth 32
  | .ntaps => s.act.ntaps.setWidth 32
  | .stepNom => s.act.stepNom
  | .status => statusWord s.created s.errs.err
  | .errcode => s.errs.code.setWidth 32
  | .errinfo => s.errs.info
  | .errcmd => s.errs.cmd
  | .errcnt => s.errs.cnt
  | .agcGain => s.sync.gain.setWidth 32
  | .dph => s.sync.dph.setWidth 32
  | .tau => s.sync.tau
  | .tint => s.sync.tint
  | .tv => s.sync.tv
  | .half => halfWord s.sync.half
  | .yon => pack s.sync.yon
  | .ymid => pack s.sync.ymid
  | .theta => s.sync.theta
  | .freq => s.sync.freq
  | .symcnt => s.sync.symcnt
  | .outlen => s.outLen.setWidth 32
  | .w0 => pack s.sync.w0
  | .w1 => pack s.sync.w1
  | .w2 => pack s.sync.w2
  | .w3 => pack s.sync.w3

/-- The write of a staged register: all 16 bits, no check (R33, R141). The other registers are read-only. -/
def Staged.write (g : Staged) (c : Csr) (v : Half) : Staged :=
  match c with
  | .cfgK => { g with k := v }
  | .cfgM => { g with m := v }
  | .cfgBeta => { g with beta := v }
  | .cfgShape => { g with shape := v }
  | .cfgMod => { g with mod := v }
  | .cfgDecim => { g with decim := v }
  | .cfgBw => { g with bw := v }
  | .inBase => { g with inBase := v }
  | .outBase => { g with outBase := v }
  | .outCap => { g with outCap := v }
  | .actK | .actM | .actBeta | .actShape | .actMod | .actDecim | .bw | .ntaps | .stepNom
  | .status | .errcode | .errinfo | .errcmd | .errcnt
  | .agcGain | .dph | .tau | .tint | .tv | .half | .yon | .ymid | .theta | .freq | .symcnt | .outlen
  | .w0 | .w1 | .w2 | .w3 => g

/-- `csr[c] <- v` for a staged register (R141). -/
def State.writeCsr (s : State) (c : Csr) (v : Half) : State := { s with cfg := s.cfg.write c v }

end Sys2Proof.Machine
end

