-- ==== Sys2Proof/Machine/Control.lean ====
section
/-!
DEFINITION. The control commands NOP, WRCSR, RDCSR, CREATE, SETBW, DESTROY and RESET (`40_control.md` R140 to
R153). Decode errors come before any of these meanings (R115, `60_exceptions.md` R248).
-/

namespace Sys2Proof.Machine

/-- NOP (R140). -/
def execNop (s : State) : Host.Outcome State Fault Refusal := .next (s.respond 0)

/-- WRCSR (R141): unimplemented gives info 3, read-only info 4, else all 16 bits are stored. -/
def execWrcsr (a : BitVec 8) (imm : Half) (s : State) : Host.Outcome State Fault Refusal :=
  match csrAt a with
  | none => .next (s.fail .illegalCommand 3 (.wrcsr a imm))
  | some c =>
    if csrWritable c then .next ((s.writeCsr c imm).respond 0)
    else .next (s.fail .illegalCommand 4 (.wrcsr a imm))

/-- RDCSR (R143). -/
def execRdcsr (a : BitVec 8) (s : State) : Host.Outcome State Fault Refusal :=
  match csrAt a with
  | none => .next (s.fail .illegalCommand 3 (.rdcsr a))
  | some c => .next (s.respond (s.readCsr c))

/-- One bit of `cause`. -/
def causeBit (b : Bool) (value : Nat) : Nat := if b then value else 0

/-- The cause bitmask of CREATE's seven tests on the staged values (R145, `60_exceptions.md` R241). -/
def createCause (g : Staged) : Nat :=
  causeBit (g.k.toNat < 2) 1 +
  causeBit (g.m.toNat < 1) 2 +
  causeBit (g.beta.toNat = 0 || 32768 < g.beta.toNat) 4 +
  causeBit (g.bw.toNat = 0) 8 +
  causeBit (g.decim.toNat = 0 || g.k.toNat % g.decim.toNat ≠ 0 || g.k.toNat / g.decim.toNat < 2) 16 +
  causeBit (2 < g.mod.toNat) 32 +
  causeBit (Config.ntapsMax < 2 * g.k.toNat * g.m.toNat + 1) 64

/-- The active configuration CREATE installs (R146). -/
def Staged.activate (g : Staged) : Active where
  k       := g.k
  m       := g.m
  beta    := g.beta
  shape   := g.shape
  mod     := g.mod
  decim   := g.decim
  bw      := g.bw
  ntaps   := BitVec.ofNat 10 (2 * g.k.toNat * g.m.toNat + 1)
  stepNom := BitVec.ofNat 32 (g.k.toNat / g.decim.toNat * 2 ^ 23)

/-- A successful CREATE, before its response (R146): the staged configuration installed, the synchronizer
state and HIST at their initial values, `CREATED` set. -/
def State.install (s : State) : State :=
  State.setCreated { s with act := s.cfg.activate, sync := Sync.initial, outLen := 0 }

/-- CREATE (R144 to R147). -/
def execCreate (s : State) : Host.Outcome State Fault Refusal :=
  if createCause s.cfg = 0 then .next (s.install.respond 0)
  else .next (s.fail .configurationError (BitVec.ofNat 32 (createCause s.cfg)) .create)

/-- SETBW (R149, R150). -/
def execSetbw (imm : Half) (s : State) : Host.Outcome State Fault Refusal :=
  if s.created = false then .next (s.fail .notCreated 0 (.setbw imm))
  else if imm = 0 then .next (s.fail .configurationError 8 (.setbw imm))
  else .next (State.respond { s with act := { s.act with bw := imm } } 0)

/-- DESTROY (R151). -/
def execDestroy (s : State) : Host.Outcome State Fault Refusal :=
  if s.created = false then .next (s.fail .notCreated 0 .destroy)
  else .next (s.clearCreated.respond 0)

/-- RESET (R152, R281). -/
def execReset (s : State) : Host.Outcome State Fault Refusal := .next (s.resetCsrs.respond 0)

end Sys2Proof.Machine
end

