-- ==== Sys2Proof/Machine/Agc.lean ====
section
/-!
DEFINITION. Step 1 of EXEC, the automatic gain normaliser (`41_exec.md` R174, R175).
-/

namespace Sys2Proof.Machine

/-- The output of `AGC(x)` (R174): the sample times the gain before the update, floored and saturated. -/
def agcOutput (gain : BitVec 24) (x : Cplx) : Cplx :=
  satCplx (asr (zext gain * sext16 x.re) 16) (asr (zext gain * sext16 x.im) 16)

/-- `E` of R174, the power of an AGC output in Q6.26. -/
def agcPower (y : Cplx) : Int := sext16 y.re * sext16 y.re + sext16 y.im * sext16 y.im

/-- The gain after `AGC` has put out `y` (R174): moved by 2^-8 of itself times the power error, clamped. -/
def agcGain (gain : BitVec 24) (y : Cplx) : BitVec 24 :=
  BitVec.ofInt 24
    (clamp (zext gain + asr (zext gain * (2 ^ 26 - agcPower y)) (26 + Config.agcShift)) Config.gainMin
      Config.gainMax)

/-- `AGC(x)` (R174): the new state and the value handed to the matched filter. -/
def agc (st : Sync) (x : Cplx) : Sync × Cplx :=
  let y := agcOutput st.gain x
  ({ st with gain := agcGain st.gain y }, y)

end Sys2Proof.Machine
end

