-- ==== Sys2Proof/Machine/Carrier.lean ====
section
/-!
DEFINITION. Steps 4 and 5 of EXEC, carrier recovery and the symbol output (`44_carrier.md` R220 to R228).
-/

namespace Sys2Proof.Machine

/-- `COSSIN(idx)` (R226): cosine and sine of a table index, by quadrant. -/
def cosSin (idx : Nat) : Int × Int :=
  let j := idx % 256
  match idx / 256 with
  | 0 => (sinq (256 - j), sinq j)
  | 1 => (-sinq j, sinq (256 - j))
  | 2 => (-sinq (256 - j), -sinq j)
  | _ => (sinq j, -sinq (256 - j))

/-- The table index of a phase (R220): the ten most significant bits of `THETA`, truncated. -/
def phaseIndex (theta : Word) : Nat := theta.toNat / 2 ^ (Config.phW - Config.lutB)

/-- The derotation of R222, `y * exp(-j*theta)` for the table's `(c, s)`. -/
def derotate (y : Cplx) (cs : Int × Int) : Cplx :=
  satCplx (asr (sext16 y.re * cs.1 + sext16 y.im * cs.2) 15) (asr (sext16 y.im * cs.1 - sext16 y.re * cs.2) 15)

/-- `PHASEDET(rr, ri)` (R224), selected by `ACT_MOD`. The codes from 3 on are refused by CREATE and need no
row (U8); the model gives them no phase error (log 12). -/
def phaseDet (mod : Half) (r : Cplx) : Int :=
  let rr := sext16 r.re
  let ri := sext16 r.im
  match mod.toNat with
  | 0 => 0
  | 1 => sgn rr * ri
  | 2 => sgn rr * ri - sgn ri * rr
  | _ => 0

/-- `FREQ` after `PLLUPDATE(e)` (R225), saturated. -/
def pllFreq (bw : Half) (freq : Word) (e : Int) : Word :=
  word32 (sat32 (sext32 freq + asr (zext bw * zext bw * e) 18))

/-- `THETA` after `PLLUPDATE(e)` with the new `FREQ` (R225), modulo 2^32. -/
def pllTheta (bw : Half) (theta newFreq : Word) (e : Int) : Word :=
  word32 (zext theta + sext32 newFreq + zext bw * e)

/-- `PLLUPDATE(e)` (R225). -/
def pllUpdate (a : Active) (st : Sync) (e : Int) : Sync :=
  { st with
    freq := pllFreq a.bw st.freq e
    theta := pllTheta a.bw st.theta (pllFreq a.bw st.freq e) e }

/-- The derotated symbol of `CARRIER(y)` (R222). -/
def carrierSymbol (st : Sync) (y : Cplx) : Cplx := derotate y (cosSin (phaseIndex st.theta))

/-- `CARRIER(y)` (R222, R223): the new state and the symbol it emits. -/
def carrier (a : Active) (st : Sync) (y : Cplx) : Sync × Cplx :=
  let r := carrierSymbol st y
  (pllUpdate a { st with symcnt := st.symcnt + 1 } (phaseDet a.mod r), r)

end Sys2Proof.Machine
end

