-- ==== Sys2Proof/Machine/Timing.lean ====
section
/-!
DEFINITION. Step 3 of EXEC, timing recovery (`43_timing.md` R200 to R214): the Farrow resampler, the strobes,
the timing-error detector and the loop filter.
-/

namespace Sys2Proof.Machine

/-- `K2` (R43, R200): MF outputs per symbol. -/
def Active.k2 (a : Active) : Nat := a.k.toNat / a.decim.toNat

/-- `VMAX` (R200, R208): the largest correction of a step. -/
def Active.vMax (a : Active) : Int := asr (zext a.stepNom) Config.vShift

/-- `F(w0, w1, w2, w3, mu)` of R204, one component of the interpolant. -/
def farrowF (w0 w1 w2 w3 mu : Int) : Int :=
  let a := w3 - w2 - w1 + w0
  let b := -w3 + 3 * w2 - w1 - w0
  let p := (a * mu + shl b 15) * mu
  sat16 (asr (shl w1 31 + p) 31)

/-- `FARROW(mu)` (R204): both components of the interpolant between `W1` and `W2`. -/
def farrow (st : Sync) (mu : Int) : Cplx :=
  ⟨half16 (farrowF (sext16 st.w0.re) (sext16 st.w1.re) (sext16 st.w2.re) (sext16 st.w3.re) mu),
   half16 (farrowF (sext16 st.w0.im) (sext16 st.w1.im) (sext16 st.w2.im) (sext16 st.w3.im) mu)⟩

/-- `mu` of R203: `TAU >> 9`. -/
def muOf (tau : Word) : Int := asr (zext tau) 9

/-- The timing error of R207 for a mid interpolant: `Re(conj(YON) * (late - early))`. -/
def timingError (st : Sync) (y : Cplx) : Int :=
  sext16 st.yon.re * (sext16 y.re - sext16 st.ymid.re) + sext16 st.yon.im * (sext16 y.im - sext16 st.ymid.im)

/-- `TINT` after `LOOPFILTER(e)` (R208). -/
def loopInt (a : Active) (tint : Word) (e : Int) : Word :=
  word32 (clamp (sext32 tint + asr (a.k2 * zext a.bw * zext a.bw * e) 37) (-a.vMax) a.vMax)

/-- `TV` after `LOOPFILTER(e)` with the new `TINT` (R208). -/
def loopOut (a : Active) (newTint : Word) (e : Int) : Word :=
  word32 (clamp (asr (a.k2 * zext a.bw * e) 19 + sext32 newTint) (-a.vMax) a.vMax)

/-- `LOOPFILTER(e)` (R208). -/
def loopFilter (a : Active) (st : Sync) (e : Int) : Sync :=
  { st with tint := loopInt a st.tint e, tv := loopOut a (loopInt a st.tint e) e }

/-- `ONTIME(y)` (R206): the new state and the symbol emitted. -/
def onTime (a : Active) (st : Sync) (y : Cplx) : Sync × Cplx :=
  let (st', r) := carrier a { st with yon := y } y
  (st'.setHalf, r)

/-- `MID(y)` (R207). -/
def mid (a : Active) (st : Sync) (y : Cplx) : Sync :=
  Sync.clearHalf { loopFilter a st (timingError st y) with ymid := y }

/-- `STROBE(y)` (R205): the new state and the symbols emitted, one at an on-time strobe, none at a mid
strobe. -/
def strobe (a : Active) (st : Sync) (y : Cplx) : Sync × List Cplx :=
  if st.half = false then
    let (st', r) := onTime a st y
    (st', [r])
  else (mid a st y, [])

/-- One pass of the loop of R203: interpolate, strobe, and schedule the next strobe with the `TV` the strobe
left. -/
def strobePass (a : Active) (st : Sync) : Sync × List Cplx :=
  let (st', r) := strobe a st (farrow st (muOf st.tau))
  ({ st' with tau := word32 (zext st'.tau + zext a.stepNom + sext32 st'.tv) }, r)

/-- The loop of R203, `while TAU < ONE_T`, with at most `n` passes. -/
def strobeLoop (a : Active) : Nat → Sync → Sync × List Cplx
  | 0, st => (st, [])
  | n + 1, st =>
    if st.tau.toNat < Config.oneT then
      let (st', r) := strobePass a st
      let (st'', r') := strobeLoop a n st'
      (st'', r ++ r')
    else (st, [])

/-- The window of R202 shifted by a new MF output. -/
def shiftWindow (st : Sync) (z : Cplx) : Sync :=
  { st with w0 := st.w1, w1 := st.w2, w2 := st.w3, w3 := z }

/-- `TIMING(z)` (R203). "The loop body runs 0, 1 or 2 times per call" (R203, R211): two passes are the bound
the rules prove for every state a run reaches (log 11). -/
def timing (a : Active) (st : Sync) (z : Cplx) : Sync × List Cplx :=
  let (st', r) := strobeLoop a 2 (shiftWindow st z)
  ({ st' with tau := word32 (zext st'.tau - Config.oneT) }, r)

end Sys2Proof.Machine
end

