-- ==== Sys2Proof/Machine/MatchedFilter.lean ====
section
/-!
DEFINITION. Step 2 of EXEC, the matched-filter decimator (`42_matched_filter.md` R190 to R195).
-/

namespace Sys2Proof.Machine

/-- The delay line of `l` entries shifted by a new AGC output (R191): the oldest of the `l` is lost, the
entries beyond them stay. -/
def shiftHist (l : Nat) (hist : List Cplx) (y : Cplx) : List Cplx :=
  y :: (hist.take (l - 1) ++ hist.drop l)

/-- The exact sum of R192 over `l` taps, for the component `part` of the delay line. -/
def firSum (coef : Memory) (part : Cplx → Half) (l : Nat) (hist : List Cplx) : Int :=
  ((List.range l).map fun j => tapAt coef j * sext16 (part (histAt hist j))).sum

/-- `FIR()` (R192): one floor and one saturation, at the end. -/
def fir (coef : Memory) (l : Nat) (hist : List Cplx) : Cplx :=
  satCplx (asr (firSum coef Cplx.re l hist) 15) (asr (firSum coef Cplx.im l hist) 15)

/-- `DPH` after a sample (R191, R193). -/
def nextDph (a : Active) (dph : BitVec 8) : BitVec 8 := BitVec.ofNat 8 ((dph.toNat + 1) % a.decim.toNat)

/-- `MF(y)` (R191): shift, and when `DPH` is 0 hand the filter output to the timing stage. -/
def matchedFilter (a : Active) (coef : Memory) (st : Sync) (y : Cplx) : Sync × List Cplx :=
  let st1 := { st with hist := shiftHist a.ntaps.toNat st.hist y }
  let (st2, r) :=
    if st1.dph = 0 then timing a st1 (fir coef a.ntaps.toNat st1.hist) else (st1, [])
  ({ st2 with dph := nextDph a st2.dph }, r)

end Sys2Proof.Machine
end

