-- ==== Sys2Proof/Machine/Exec.lean ====
section
/-!
DEFINITION. EXEC (`41_exec.md` R170 to R173, R176): the capacity check, the block loop, the symbols written to
OUT and the response.
-/

namespace Sys2Proof.Machine

/-- `CAPREQ(N)` (R172), on naturals. -/
def capReq (n k : Nat) : Nat := 32 * n / (31 * k) + 3

/-- The body of the block loop (R173) for one sample: `MF(AGC(x))`. -/
def runSample (a : Active) (coef : Memory) (st : Sync) (x : Cplx) : Sync × List Cplx :=
  let (st', y) := agc st x
  matchedFilter a coef st' y

/-- The block loop (R173) over the samples in order: the final state and the symbols emitted, in order. -/
def runBlock (a : Active) (coef : Memory) : Sync → List Cplx → Sync × List Cplx
  | st, [] => (st, [])
  | st, x :: xs =>
    let (st', r) := runSample a coef st x
    let (st'', r') := runBlock a coef st' xs
    (st'', r ++ r')

/-- The samples of a block of `n` (R173): IN from `IN_BASE` on, wrapping (R85). -/
def blockSamples (s : State) (n : Nat) : List Cplx :=
  (List.range n).map fun i => sampleAt s.inMem s.cfg.inBase i

/-- What the block loop gives for a block of `n` samples from the present state. -/
def blockResult (s : State) (n : Nat) : Sync × List Cplx :=
  runBlock s.act s.coefMem s.sync (blockSamples s n)

/-- OUT with the symbols of a block from `OUT_BASE` on (R173, R85). -/
def blockOut (s : State) (symbols : List Cplx) : Memory := storeSymbols s.outMem s.cfg.outBase 0 symbols

/-- Whether a block of `n` samples passes the two tests of R170. -/
def State.execPasses (s : State) (n : Nat) : Prop := s.created = true ∧ capReq n s.act.k.toNat ≤ s.cfg.outCap.toNat

/-- The state after the block loop (R173), before the response. -/
def State.afterBlock (s : State) (n : Nat) : State :=
  { s with
    sync   := (blockResult s n).1
    outMem := blockOut s (blockResult s n).2
    outLen := BitVec.ofNat 16 (blockResult s n).2.length }

/-- EXEC (R170). -/
def execExec (imm : Half) (s : State) : Host.Outcome State Fault Refusal :=
  let n := immCount imm
  if s.created = false then .next (s.fail .notCreated 0 (.exec imm))
  else if s.cfg.outCap.toNat < capReq n s.act.k.toNat then
    .next (s.fail .capacityError (BitVec.ofNat 32 (capReq n s.act.k.toNat)) (.exec imm))
  else .next ((s.afterBlock n).respond (BitVec.ofNat 32 (blockResult s n).2.length))

end Sys2Proof.Machine
end

