-- ==== Sys2Proof/Machine/Dispatch.lean ====
section
/-!
DEFINITION. Which meaning each command has, one arm per constructor of `Instr`.
-/

namespace Sys2Proof.Machine

def exec (i : Instr) (s : State) : Host.Outcome State Fault Refusal :=
  match i with
  | .nop => Sys2Proof.Machine.execNop s
  | .wrcsr a imm => Sys2Proof.Machine.execWrcsr a imm s
  | .rdcsr a => Sys2Proof.Machine.execRdcsr a s
  | .create => Sys2Proof.Machine.execCreate s
  | .setbw imm => Sys2Proof.Machine.execSetbw imm s
  | .exec imm => Sys2Proof.Machine.execExec imm s
  | .destroy => Sys2Proof.Machine.execDestroy s
  | .reset => Sys2Proof.Machine.execReset s

end Sys2Proof.Machine
end

