-- ==== Sys2Proof/Machine/HostPort.lean ====
section
/-!
DEFINITION. The moves of the host and of the reset input (`20_memory.md` R96, R97, `70_reset_and_hazards.md`
R280), each carried through to SYNC1's answer.
-/

namespace Sys2Proof.Machine

/-- `Issue(w)` (R97, `30_encoding.md` R117): the word is decoded and executed to completion, and the host has
its response; an illegal word is answered by IllegalCommand (R115). -/
def State.issue (s : State) (w : Word) : Host.Outcome State Fault Refusal :=
  match decode w with
  | .ok i => exec i s
  | .error e => .next (s.illegalWord e w)

/-- The symbols a command writes to OUT when nothing stops it: those of an EXEC that passes its tests. -/
def State.symbolsOf (s : State) (w : Word) : List Cplx :=
  match decode w with
  | .ok (.exec imm) =>
    if s.created && decide (capReq (immCount imm) s.act.k.toNat ≤ s.cfg.outCap.toNat) then
      (blockResult s (immCount imm)).2
    else []
  | _ => []

/-- A reset asserted while the command `w` executes (R280, U9): no response, the CSRs take their reset
values, and the first `n` symbols the command would have written stay written (log 8). -/
def State.abandon (s : State) (w : Word) (n : Nat) : State :=
  State.resetCsrs { s with outMem := blockOut s ((s.symbolsOf w).take n) }

/-- What a move of the host does (R97). -/
def State.move (s : State) (m : HostMove) : Host.Outcome State Fault Refusal :=
  match m with
  | .issue w => s.issue w
  | .writeCoef a v => .next { s with coefMem := s.coefMem.writeHalf a.toNat v }
  | .writeIn a v => .next { s with inMem := s.inMem.writeWord a.toNat v }
  | .writeOut a v => .next { s with outMem := s.outMem.writeWord a.toNat v }
  | .readCoef a => .next { s with hostReads := s.hostReads ++ [.coef (s.coefMem.readHalf a.toNat)] }
  | .readIn a => .next { s with hostReads := s.hostReads ++ [.sample (s.inMem.readWord a.toNat)] }
  | .readOut a => .next { s with hostReads := s.hostReads ++ [.symbol (s.outMem.readWord a.toNat)] }
  | .hardwareReset => .next s.resetCsrs
  | .resetDuring w n => .next (s.abandon w n)

/-- The host's next move and the state without it, if the host makes one. -/
def State.takeMove (s : State) : Option (HostMove × State) :=
  match s.pending with
  | [] => none
  | m :: rest => some (m, { s with pending := rest })

/-- The host's coming moves with `m` before them. -/
def State.offer (s : State) (m : HostMove) : State := { s with pending := m :: s.pending }

end Sys2Proof.Machine
end

