-- ==== Sys2Proof/Machine/Step.lean ====
section
/-!
DEFINITION. The step: one move of the host, carried through to SYNC1's answer (`00_scope.md` R14). With no
move pending SYNC1 is idle and holds its state (`60_exceptions.md` R267).
-/

namespace Sys2Proof.Machine

/-- One step of the machine. -/
def step (s : State) : Host.Outcome State Fault Refusal :=
  match s.takeMove with
  | none => .next s
  | some (m, s') => s'.move m

/-- The command of a row of the opcode table given to the command port, where `step` takes its next command
from (log 5). -/
def State.withFetchWord (s : State) (nbits w : Nat) : State :=
  s.offer (.issue (BitVec.ofNat 32 (w % 2 ^ nbits)))

end Sys2Proof.Machine
end

