-- ==== Sys2Proof/WellFormed.lean ====
section
/-!
DEFINITION. What is well formed: a command, by the tests of `30_encoding.md` R115 on its four fields, and a
line of the assembler, by the operand ranges of R119. The types of `Instr` already bound its operands, so
every command passes; the assembler's operands are plain numbers and are refused when they do not fit.
-/

namespace Sys2Proof

/-- A command is well formed when its fields pass the tests of R115. Every term of `Instr` is, because the
operand types have the fields' widths (`Sys2Proof.Laws.FieldsLegal`). -/
abbrev Instr.WellFormed (i : Instr) : Prop := i.fields.illegal = none

/-- An `<imm>` or `<n>` operand must be 0 to 65535 (R119). -/
def immFits (n : Nat) : Bool := n ≤ 65535

/-- A `<csr>` operand must be 0 to 255 (R119). A name is an address of the map. -/
def CsrOperand.fits : CsrOperand → Bool
  | .name _ => true
  | .addr n => n ≤ 255

/-- A raw word must fit the 32 bits of a command word (R110; DEDUCED, log 16). -/
def wordFits (n : Nat) : Bool := n < 2 ^ 32

/-- Whether the assembler accepts a line (R119, R120). -/
def AsmCmd.wellFormed : AsmCmd → Bool
  | .nop | .create | .destroy | .reset => true
  | .wrcsr c imm => c.fits && immFits imm
  | .rdcsr c => c.fits
  | .setbw imm => immFits imm
  | .exec n => immFits n
  | .word n => wordFits n
  | .config k m beta shape mod decim bw => [k, m, beta, shape, mod, decim, bw].all immFits
  | .buffers i o c => [i, o, c].all immFits
  | .run i o c n => [i, o, c, n].all immFits

end Sys2Proof
end

