-- ==== Sys2Proof/Machine/Assembler.lean ====
section
/-!
DEFINITION. The assembler of `30_encoding.md` R119 and R120: from a line of text to command words. It is the
notation of the spec's examples and has no effect on SYNC1 (`92_eei_decisions.md` D28).
-/

namespace Sys2Proof.Machine

/-- The name of a register (R34). -/
def csrName : Csr → String
  | .cfgK => "CFG_K"
  | .cfgM => "CFG_M"
  | .cfgBeta => "CFG_BETA"
  | .cfgShape => "CFG_SHAPE"
  | .cfgMod => "CFG_MOD"
  | .cfgDecim => "CFG_DECIM"
  | .cfgBw => "CFG_BW"
  | .inBase => "IN_BASE"
  | .outBase => "OUT_BASE"
  | .outCap => "OUT_CAP"
  | .actK => "ACT_K"
  | .actM => "ACT_M"
  | .actBeta => "ACT_BETA"
  | .actShape => "ACT_SHAPE"
  | .actMod => "ACT_MOD"
  | .actDecim => "ACT_DECIM"
  | .bw => "BW"
  | .ntaps => "NTAPS"
  | .stepNom => "STEP_NOM"
  | .status => "STATUS"
  | .errcode => "ERRCODE"
  | .errinfo => "ERRINFO"
  | .errcmd => "ERRCMD"
  | .errcnt => "ERRCNT"
  | .agcGain => "AGC_GAIN"
  | .dph => "DPH"
  | .tau => "TAU"
  | .tint => "TINT"
  | .tv => "TV"
  | .half => "HALF"
  | .yon => "YON"
  | .ymid => "YMID"
  | .theta => "THETA"
  | .freq => "FREQ"
  | .symcnt => "SYMCNT"
  | .outlen => "OUTLEN"
  | .w0 => "W0"
  | .w1 => "W1"
  | .w2 => "W2"
  | .w3 => "W3"

/-- The address a CSR operand names (R119). -/
def operandAddr : CsrOperand → BitVec 8
  | .name c => csrAddr c
  | .addr n => BitVec.ofNat 8 n

/-- The words of a line whose operands fit (R119), the pseudo-commands expanded in the order of R120. -/
def asmWords : AsmCmd → List Word
  | .nop => [encode .nop]
  | .wrcsr c imm => [encode (.wrcsr (operandAddr c) (BitVec.ofNat 16 imm))]
  | .rdcsr c => [encode (.rdcsr (operandAddr c))]
  | .create => [encode .create]
  | .setbw imm => [encode (.setbw (BitVec.ofNat 16 imm))]
  | .exec n => [encode (.exec (BitVec.ofNat 16 n))]
  | .destroy => [encode .destroy]
  | .reset => [encode .reset]
  | .word n => [BitVec.ofNat 32 n]
  | .config k m beta shape mod decim bw =>
    writes [(.cfgK, k), (.cfgM, m), (.cfgBeta, beta), (.cfgShape, shape), (.cfgMod, mod), (.cfgDecim, decim),
      (.cfgBw, bw)]
  | .buffers i o c => writes [(.inBase, i), (.outBase, o), (.outCap, c)]
  | .run i o c n =>
    writes [(.inBase, i), (.outBase, o), (.outCap, c)] ++ [encode (.exec (BitVec.ofNat 16 n))]
where
  writes (l : List (Csr × Nat)) : List Word :=
    l.map fun p => encode (.wrcsr (csrAddr p.1) (BitVec.ofNat 16 p.2))

/-- Assembling one command: an operand that does not fit is refused, not truncated (R119). -/
def assemble (c : AsmCmd) : Option (List Word) := if c.wellFormed then some (asmWords c) else none

/-! ## The text of a line -/

/-- A blank of a line: a space, a tab or a carriage return. R119 names none of them; which characters are blanks,
the carriage return among them, is the model's (DESIGN CHOICE, log 16). -/
def isBlankChar (c : Char) : Bool := c = ' ' || c = '\t' || c = '\r'

/-- A run of characters without the blanks around it. -/
def trimChars (l : List Char) : List Char := ((l.dropWhile isBlankChar).reverse.dropWhile isBlankChar).reverse

/-- The pieces between the characters `sep`. -/
def splitAtChar (sep : Char) : List Char → List (List Char)
  | [] => [[]]
  | c :: t =>
    if c = sep then [] :: splitAtChar sep t
    else match splitAtChar sep t with
      | [] => [[c]]
      | p :: ps => (c :: p) :: ps

/-- The value of a digit in base 10 or 16. -/
def digitValue (c : Char) : Option Nat :=
  if '0' ≤ c ∧ c ≤ '9' then some (c.toNat - 48)
  else if 'a' ≤ c ∧ c ≤ 'f' then some (c.toNat - 87)
  else if 'A' ≤ c ∧ c ≤ 'F' then some (c.toNat - 55)
  else none

/-- The value of digits in a base, after those already read. -/
def digitsValue (base : Nat) : Nat → List Char → Option Nat
  | acc, [] => some acc
  | acc, c :: t =>
    match digitValue c with
    | some d => if d < base then digitsValue base (acc * base + d) t else none
    | none => none

/-- A number, decimal or hexadecimal with `0x` (R119). -/
def parseNumber (l : List Char) : Option Nat :=
  match l with
  | [] => none
  | '0' :: 'x' :: [] => none
  | '0' :: 'x' :: t => digitsValue 16 0 t
  | _ => digitsValue 10 0 l

/-- A CSR operand: a name of R34 in upper case, or a number (R119). -/
def parseCsr (l : List Char) : Option CsrOperand :=
  match csrMap.find? fun c => (csrName c).toList = l with
  | some c => some (.name c)
  | none => (parseNumber l).map .addr

/-- The command of a mnemonic in lower case and its operands as written (R119, R120). -/
def parseCommand (mnemonic : String) (ops : List (List Char)) : Option AsmCmd :=
  match mnemonic, ops with
  | "nop", [] => some .nop
  | "wrcsr", [c, i] => do some (.wrcsr (← parseCsr c) (← parseNumber i))
  | "rdcsr", [c] => do some (.rdcsr (← parseCsr c))
  | "create", [] => some .create
  | "setbw", [i] => do some (.setbw (← parseNumber i))
  | "exec", [n] => do some (.exec (← parseNumber n))
  | "destroy", [] => some .destroy
  | "reset", [] => some .reset
  | ".word", [n] => do some (.word (← parseNumber n))
  | "config", [k, m, b, s, o, d, w] => do
    some (.config (← parseNumber k) (← parseNumber m) (← parseNumber b) (← parseNumber s) (← parseNumber o)
      (← parseNumber d) (← parseNumber w))
  | "buffers", [i, o, c] => do some (.buffers (← parseNumber i) (← parseNumber o) (← parseNumber c))
  | "run", [i, o, c, n] => do
    some (.run (← parseNumber i) (← parseNumber o) (← parseNumber c) (← parseNumber n))
  | _, _ => none

/-- A line of text: a `#` starts a comment, the mnemonic is not case-sensitive, operands are separated by
commas (R119). A line with nothing on it gives no words; `none` where the assembler refuses the line. -/
def assembleLine (line : String) : Option (List Word) :=
  let body := trimChars (line.toList.takeWhile (· ≠ '#'))
  if body = [] then some []
  else
    let mnemonic := body.takeWhile fun c => !isBlankChar c
    let rest := trimChars (body.dropWhile fun c => !isBlankChar c)
    let ops := if rest = [] then [] else (splitAtChar ',' rest).map trimChars
    match parseCommand (String.ofList (mnemonic.map Char.toLower)) ops with
    | some c => assemble c
    | none => none

end Sys2Proof.Machine
end

