-- ==== Sys2Proof/Safety.lean ====
section
/-!
DEFINITION. What a sound state and a safe run are, in the terms the statements use: the ranges the rules give
the active configuration and the synchronizer state, the invariant every step keeps, and the states a run
reaches.
-/

namespace Sys2Proof.Machine

/-- The active configuration of an instance: the ranges CREATE has checked and the two registers it derives
(`40_control.md` R145, R146; `10_state.md` R44, R45). -/
abbrev Active.Legal (a : Active) : Prop :=
  2 ≤ a.k.toNat ∧ 1 ≤ a.m.toNat ∧ 1 ≤ a.beta.toNat ∧ a.beta.toNat ≤ 32768 ∧ 1 ≤ a.bw.toNat ∧
  1 ≤ a.decim.toNat ∧ a.k.toNat % a.decim.toNat = 0 ∧ 2 ≤ a.k2 ∧ a.mod.toNat ≤ 2 ∧
  a.ntaps.toNat = 2 * a.k.toNat * a.m.toNat + 1 ∧ a.ntaps.toNat ≤ 511 ∧
  a.stepNom.toNat = a.k2 * 2 ^ 23

/-- The ranges of the synchronizer state of an instance (`10_state.md` R49 to R51). -/
abbrev Sync.InRange (a : Active) (st : Sync) : Prop :=
  st.dph.toNat < a.decim.toNat ∧
  zext st.tau < zext a.stepNom + a.vMax ∧
  -a.vMax ≤ sext32 st.tint ∧ sext32 st.tint ≤ a.vMax ∧
  -a.vMax ≤ sext32 st.tv ∧ sext32 st.tv ≤ a.vMax

/-- The error registers: all at reset while `ERR` is 0, a code of R240 once it is 1 (R46). -/
abbrev ErrRegs.Sound (e : ErrRegs) : Prop :=
  (e.err = false → e = ErrRegs.reset) ∧ (e.err = true → 1 ≤ e.code.toNat ∧ e.code.toNat ≤ 4)

/-- The three host-visible memories are in canonical form. -/
abbrev State.MemoriesWf (s : State) : Prop :=
  s.coefMem.wf coefBytes = true ∧ s.inMem.wf sampleBytes = true ∧ s.outMem.wf sampleBytes = true

/-- The invariant of SYNC1. -/
abbrev State.Inv (s : State) : Prop :=
  (s.created = true → s.act.Legal ∧ s.sync.InRange s.act) ∧
  Config.gainMin ≤ s.sync.gain.toNat ∧
  s.sync.hist.length = Config.ntapsMax ∧
  s.errs.Sound ∧
  s.MemoriesWf

/-- The states a run reaches: from power-on with any contents of the memories (R58) and any moves of the
host, by steps. -/
inductive Reachable : State → Prop where
  | start (coef inp out : Nat) (moves : List HostMove) :
      Reachable { State.atPowerOn coef inp out with pending := moves }
  | step (s t : State) : Reachable s → Machine.step s = .next t → Reachable t

end Sys2Proof.Machine
end

