-- ==== Sys2Proof/Certificates/Slice0/Obligations.lean ====
section
/-!
DEFINITION. The statements about SYNC1 for the provers. Each docstring names the rules of `spec/` it rests on.
-/

open Sys2Proof Sys2Proof.Machine

/-! ## Encoding and decoding -/

/-- R111, R114, R115: decoding the word of a well-formed command gives the command back, every operand at
every value; and so through the opcode table's numbering. -/
def Obligations.DecodeOfEncodeGivesTheCommand : Prop :=
  ∀ i : Instr, i.WellFormed → decode (encode i) = .ok i ∧ decodeTableWord 32 (encode i).toNat = some i

/-- R115: a word is at most one command, and that command's word is the word itself. -/
def Obligations.EncodeOfDecodeGivesTheWord : Prop :=
  ∀ (w : Word) (i : Instr), decode w = .ok i → encode i = w

/-- R115: every one of the 2^32 words, by the tests in their order on the fields of R111. -/
def Obligations.DecodeTestsTheFieldsInOrder : Prop :=
  ∀ w : Word,
    decode w =
      (let op := w.toNat / 2 ^ 28
       let rsv := w.toNat / 2 ^ 24 % 16
       let a := w.toNat / 2 ^ 16 % 256
       let imm := w.toNat % 2 ^ 16
       if 8 ≤ op then .error .reservedOpcode
       else if rsv ≠ 0 then .error .mustBeZero
       else if (op ≠ 1 ∧ op ≠ 2 ∧ a ≠ 0) ∨ (op ≠ 1 ∧ op ≠ 4 ∧ op ≠ 5 ∧ imm ≠ 0) then .error .mustBeZero
       else .ok (match op with
         | 0 => .nop
         | 1 => .wrcsr (BitVec.ofNat 8 a) (BitVec.ofNat 16 imm)
         | 2 => .rdcsr (BitVec.ofNat 8 a)
         | 3 => .create
         | 4 => .setbw (BitVec.ofNat 16 imm)
         | 5 => .exec (BitVec.ofNat 16 imm)
         | 6 => .destroy
         | _ => .reset))

/-- R121: the worked encodings. -/
def Obligations.WorkedEncodingsDecodeAsWritten : Prop :=
  decode 0x10000004 = .ok (.wrcsr (csrAddr .cfgK) 4) ∧
  decode 0x10091049 = .ok (.wrcsr (csrAddr .outCap) 4169) ∧
  decode 0x20200000 = .ok (.rdcsr (csrAddr .status)) ∧
  decode 0x203A0000 = .ok (.rdcsr (csrAddr .symcnt)) ∧
  decode 0x4000051F = .ok (.setbw 1311) ∧
  decode 0x50001F88 = .ok (.exec 8072) ∧
  decode 0x51000008 = .error .mustBeZero ∧ DecodeError.info .mustBeZero = 2 ∧
  decode 0x30000001 = .error .mustBeZero ∧
  decode 0x80000000 = .error .reservedOpcode ∧ DecodeError.info .reservedOpcode = 1

/-- R119, R120: the words of every line of the assembler's table, with a CSR operand as an address or as a name,
the expansion of every pseudo-command, and the refusal of every operand that does not fit. That `.word` takes
what fits 32 bits, and that a pseudo-command refuses what its commands refuse, are the model's choices (log 16). -/
def Obligations.AssemblerGivesTheWordsOfItsTable : Prop :=
  (assemble .nop = some [0x00000000] ∧ assemble .create = some [0x30000000] ∧
    assemble .destroy = some [0x60000000] ∧ assemble .reset = some [0x70000000]) ∧
  (∀ (a imm : Nat), a ≤ 255 → imm ≤ 65535 →
    assemble (.wrcsr (.addr a) imm) = some [BitVec.ofNat 32 (0x10000000 + a * 2 ^ 16 + imm)] ∧
    assemble (.rdcsr (.addr a)) = some [BitVec.ofNat 32 (0x20000000 + a * 2 ^ 16)] ∧
    assemble (.setbw imm) = some [BitVec.ofNat 32 (0x40000000 + imm)] ∧
    assemble (.exec imm) = some [BitVec.ofNat 32 (0x50000000 + imm)]) ∧
  (∀ (c : Csr) (imm : Nat),
    assemble (.wrcsr (.name c) imm) = assemble (.wrcsr (.addr (csrAddr c).toNat) imm) ∧
    assemble (.rdcsr (.name c)) = assemble (.rdcsr (.addr (csrAddr c).toNat))) ∧
  (∀ n : Nat, assemble (.word n) = if n < 2 ^ 32 then some [BitVec.ofNat 32 n] else none) ∧
  (∀ (a imm : Nat), (255 < a ∨ 65535 < imm) → assemble (.wrcsr (.addr a) imm) = none) ∧
  (∀ a : Nat, 255 < a → assemble (.rdcsr (.addr a)) = none) ∧
  (∀ imm : Nat, 65535 < imm → assemble (.setbw imm) = none ∧ assemble (.exec imm) = none) ∧
  (∀ k m b s o d w : Nat, k ≤ 65535 → m ≤ 65535 → b ≤ 65535 → s ≤ 65535 → o ≤ 65535 → d ≤ 65535 → w ≤ 65535 →
    assemble (.config k m b s o d w) = some
      [BitVec.ofNat 32 (0x10000000 + k), BitVec.ofNat 32 (0x10010000 + m), BitVec.ofNat 32 (0x10020000 + b),
       BitVec.ofNat 32 (0x10030000 + s), BitVec.ofNat 32 (0x10040000 + o), BitVec.ofNat 32 (0x10050000 + d),
       BitVec.ofNat 32 (0x10060000 + w)]) ∧
  (∀ k m b s o d w : Nat,
    (65535 < k ∨ 65535 < m ∨ 65535 < b ∨ 65535 < s ∨ 65535 < o ∨ 65535 < d ∨ 65535 < w) →
    assemble (.config k m b s o d w) = none) ∧
  (∀ i o c n : Nat, i ≤ 65535 → o ≤ 65535 → c ≤ 65535 → n ≤ 65535 →
    ∃ b e, assemble (.buffers i o c) = some b ∧ assemble (.exec n) = some e ∧
      b = [BitVec.ofNat 32 (0x10070000 + i), BitVec.ofNat 32 (0x10080000 + o), BitVec.ofNat 32 (0x10090000 + c)] ∧
      assemble (.run i o c n) = some (b ++ e)) ∧
  (∀ i o c : Nat, (65535 < i ∨ 65535 < o ∨ 65535 < c) → assemble (.buffers i o c) = none) ∧
  (∀ i o c n : Nat, (65535 < i ∨ 65535 < o ∨ 65535 < c ∨ 65535 < n) → assemble (.run i o c n) = none)

/-! ## The step and the host's moves -/

/-- R14, R97, R117: when the host issues a word that decodes to a command, the step is that command's `exec`
on the state without the move; and `withFetchWord` gives a command so. The list of the host's moves is the
model's (log 4, log 5, log 6). -/
def Obligations.StepRunsTheDecodedCommand : Prop :=
  (∀ (s : State) (w : Word) (rest : List HostMove) (i : Instr),
    s.pending = .issue w :: rest → decode w = .ok i → step s = exec i { s with pending := rest }) ∧
  (∀ (s : State) (i : Instr), step (s.withFetchWord 32 (encode i).toNat) = exec i s)

/-- R115, R243, R244, R245: an illegal word changes the five error registers, gives one response, and changes
nothing else. -/
def Obligations.IllegalWordRaisesIllegalCommand : Prop :=
  ∀ (s : State) (w : Word) (rest : List HostMove), s.pending = .issue w :: rest →
    (8 ≤ w.toNat / 2 ^ 28 →
      step s = .next { s with
        pending := rest
        errs := ⟨true, 3, 1, w, s.errs.cnt + 1⟩
        responses := s.responses ++ [⟨3, 1⟩] }) ∧
    (w.toNat / 2 ^ 28 < 8 → (∀ i, decode w ≠ .ok i) →
      step s = .next { s with
        pending := rest
        errs := ⟨true, 3, 2, w, s.errs.cnt + 1⟩
        responses := s.responses ++ [⟨3, 2⟩] })

/-- R267, R246: with no move of the host SYNC1 holds its state (the idle step is the model's, log 4), and from
every state the step answers a next state: SYNC1 never stops. -/
def Obligations.EveryStepAnswersANextState : Prop :=
  (∀ s : State, s.pending = [] → step s = .next s) ∧ ∀ s : State, ∃ t, step s = .next t

/-- R88, R97: a word of IN the host writes reads back, every other word and byte of IN is as it was, and
nothing else changes. The list of words read is the model's (log 7). -/
def Obligations.HostReadOfInGivesTheWordWritten : Prop :=
  ∀ (s : State) (a b : Half) (v : Word) (rest : List HostMove), s.MemoriesWf →
    s.pending = .writeIn a v :: .readIn b :: rest →
    ∃ t u, step s = .next t ∧ step t = .next u ∧
      t = { s with pending := .readIn b :: rest, inMem := t.inMem } ∧
      u = { t with
        pending := rest
        hostReads := s.hostReads ++ [.sample (if b = a then v else s.inMem.readWord b.toNat)] } ∧
      ∀ x, x / 4 ≠ a.toNat → t.inMem.readByte x = s.inMem.readByte x

/-- R88, R97: the same of COEF and of OUT. -/
def Obligations.HostReadOfCoefAndOutGivesTheWordWritten : Prop :=
  (∀ (s : State) (a b : BitVec 9) (v : Half) (rest : List HostMove), s.MemoriesWf →
    s.pending = .writeCoef a v :: .readCoef b :: rest →
    ∃ t u, step s = .next t ∧ step t = .next u ∧
      t = { s with pending := .readCoef b :: rest, coefMem := t.coefMem } ∧
      u = { t with
        pending := rest
        hostReads := s.hostReads ++ [.coef (if b = a then v else s.coefMem.readHalf b.toNat)] } ∧
      ∀ x, x / 2 ≠ a.toNat → t.coefMem.readByte x = s.coefMem.readByte x) ∧
  (∀ (s : State) (a b : Half) (v : Word) (rest : List HostMove), s.MemoriesWf →
    s.pending = .writeOut a v :: .readOut b :: rest →
    ∃ t u, step s = .next t ∧ step t = .next u ∧
      t = { s with pending := .readOut b :: rest, outMem := t.outMem } ∧
      u = { t with
        pending := rest
        hostReads := s.hostReads ++ [.symbol (if b = a then v else s.outMem.readWord b.toNat)] } ∧
      ∀ x, x / 4 ≠ a.toNat → t.outMem.readByte x = s.outMem.readByte x)

/-! ## Reset -/

/-- R34, R61, R282: what every CSR reads as after power-on and reset, whatever the memories hold, and in which
order the map has the addresses. -/
def Obligations.ResetValueOfEveryCsr : Prop :=
  ∀ coef inp out : Nat,
    (csrMap.map fun c => ((csrAddr c).toNat, ((State.atPowerOn coef inp out).readCsr c).toNat)) =
      [(0x00, 2), (0x01, 7), (0x02, 8192), (0x03, 0), (0x04, 2), (0x05, 1), (0x06, 1311), (0x07, 0), (0x08, 0),
       (0x09, 0)] ++
      [(0x10, 0), (0x11, 0), (0x12, 0), (0x13, 0), (0x14, 0), (0x15, 0), (0x16, 0), (0x17, 0), (0x18, 0)] ++
      [(0x20, 0), (0x21, 0), (0x22, 0), (0x23, 0), (0x24, 0)] ++
      [(0x30, 0x10000), (0x31, 0), (0x32, 0), (0x33, 0), (0x34, 0), (0x35, 0), (0x36, 0), (0x37, 0), (0x38, 0),
       (0x39, 0), (0x3A, 0), (0x3B, 0)] ++
      [(0x40, 0), (0x41, 0), (0x42, 0), (0x43, 0)]

/-- R152, R280, R281: in every state RESET answers (OK, 0), every CSR reads its reset value after it, COEF, IN
and OUT are unchanged, and the reset input does the same without a response. That the host's coming moves, the
words it has read and the responses it has been given stay is the model's choice (log 4, log 7). -/
def Obligations.ResetCommandRestoresEveryCsr : Prop :=
  ∀ s : State, ∃ t, exec .reset s = .next t ∧
    (∀ c, t.readCsr c = State.reset.readCsr c) ∧
    t.coefMem = s.coefMem ∧ t.inMem = s.inMem ∧ t.outMem = s.outMem ∧
    t.pending = s.pending ∧ t.hostReads = s.hostReads ∧ t.responses = s.responses ++ [⟨0, 0⟩] ∧
    step (s.offer .hardwareReset) = .next { t with responses := s.responses }

/-- R152, R282: RESET completes in every state, with no condition on it. The next state has every register at
the value R282 gives, CREATED, ERR and HALF at 0 and the response (OK, 0). HIST is named by no rule (R281) and
left open here; COEF, IN, OUT stay. That the host's lists stay is the model's choice (log 4, log 7). -/
def Obligations.ResetCompletesWithTheResetState : Prop :=
  ∀ s : State, ∃ hist : List Cplx, exec .reset s = .next { s with
    cfg := ⟨2, 7, 8192, 0, 2, 1, 1311, 0, 0, 0⟩
    act := ⟨0, 0, 0, 0, 0, 0, 0, 0, 0⟩
    created := false
    errs := ⟨false, 0, 0, 0, 0⟩
    sync := ⟨0x010000, 0, hist, ⟨0, 0⟩, ⟨0, 0⟩, ⟨0, 0⟩, ⟨0, 0⟩, 0, 0, 0, false, ⟨0, 0⟩, ⟨0, 0⟩, 0, 0, 0⟩
    outLen := 0
    responses := s.responses ++ [⟨0, 0⟩] }

/-- R280, U9: a reset asserted while an EXEC that passes its tests runs gives no response, puts every CSR at
its reset value, and leaves the first `n` symbols of the block in OUT, in order, every other byte of OUT as it
was. That `n` is a number the move carries is the model's choice (log 8). -/
def Obligations.ResetDuringExecKeepsThePrefixOfItsSymbols : Prop :=
  ∀ (s : State) (imm : Half) (n : Nat), s.Inv → s.execPasses imm.toNat →
    ∃ t, step (s.offer (.resetDuring (encode (.exec imm)) n)) = .next t ∧
      (∀ c, t.readCsr c = State.reset.readCsr c) ∧ t.responses = s.responses ∧
      t.coefMem = s.coefMem ∧ t.inMem = s.inMem ∧
      (∀ (j : Nat) (r : Cplx), j < n → (blockResult s imm.toNat).2[j]? = some r →
        t.outMem.readWord ((s.cfg.outBase.toNat + j) % 65536) = pack r) ∧
      (∀ x, (∀ j < n, j < (blockResult s imm.toNat).2.length → x / 4 ≠ (s.cfg.outBase.toNat + j) % 65536) →
        t.outMem.readByte x = s.outMem.readByte x)

/-! ## The control commands -/

/-- R140: NOP answers (OK, 0) and changes no state; every other word with opcode 0 is illegal. -/
def Obligations.NopOnlyResponds : Prop :=
  (∀ s : State, exec .nop s = .next { s with responses := s.responses ++ [⟨0, 0⟩] }) ∧
  DecodeError.info .mustBeZero = 2 ∧
  ∀ w : Word, w.toNat / 2 ^ 28 = 0 → w ≠ 0 → decode w = .error .mustBeZero

/-- R141: WRCSR by address. At 0x00 to 0x09 the register then reads the 16 bits written, every other CSR reads
as before and nothing outside the staged configuration changes; at an implemented read-only address it raises
IllegalCommand(4), at any other IllegalCommand(3). -/
def Obligations.WrcsrWritesStagedRegistersOnly : Prop :=
  ∀ (s : State) (a : BitVec 8) (imm : Half),
    let n := a.toNat
    let w : Word := BitVec.ofNat 32 (0x10000000 + n * 2 ^ 16 + imm.toNat)
    (n ≤ 0x09 → ∃ t c, csrAddr c = a ∧ exec (.wrcsr a imm) s = .next t ∧
      (t.readCsr c).toNat = imm.toNat ∧ (∀ d, d ≠ c → t.readCsr d = s.readCsr d) ∧
      t = { s with cfg := t.cfg, responses := s.responses ++ [⟨0, 0⟩] }) ∧
    ((0x10 ≤ n ∧ n ≤ 0x18) ∨ (0x20 ≤ n ∧ n ≤ 0x24) ∨ (0x30 ≤ n ∧ n ≤ 0x3B) ∨ (0x40 ≤ n ∧ n ≤ 0x43) →
      exec (.wrcsr a imm) s = .next { s with
        errs := ⟨true, 3, 4, w, s.errs.cnt + 1⟩
        responses := s.responses ++ [⟨3, 4⟩] }) ∧
    ((0x0A ≤ n ∧ n ≤ 0x0F) ∨ (0x19 ≤ n ∧ n ≤ 0x1F) ∨ (0x25 ≤ n ∧ n ≤ 0x2F) ∨ (0x3C ≤ n ∧ n ≤ 0x3F) ∨ 0x44 ≤ n →
      exec (.wrcsr a imm) s = .next { s with
        errs := ⟨true, 3, 3, w, s.errs.cnt + 1⟩
        responses := s.responses ++ [⟨3, 3⟩] })

/-- R143, R33, R34: RDCSR answers the register's value and changes nothing; an unimplemented address raises
IllegalCommand(3); and the value of each register by its field: narrow ones zero-extended, `TINT`, `TV` and
`FREQ` as two's complement, complex ones with the imaginary part in bits 31:16 (R11). -/
def Obligations.RdcsrAnswersTheRegister : Prop :=
  (∀ (s : State) (c : Csr),
    exec (.rdcsr (csrAddr c)) s = .next { s with responses := s.responses ++ [⟨0, s.readCsr c⟩] }) ∧
  (∀ (s : State) (a : BitVec 8),
    let n := a.toNat
    (0x0A ≤ n ∧ n ≤ 0x0F) ∨ (0x19 ≤ n ∧ n ≤ 0x1F) ∨ (0x25 ≤ n ∧ n ≤ 0x2F) ∨ (0x3C ≤ n ∧ n ≤ 0x3F) ∨ 0x44 ≤ n →
      exec (.rdcsr a) s = .next { s with
        errs := ⟨true, 3, 3, BitVec.ofNat 32 (0x20000000 + n * 2 ^ 16), s.errs.cnt + 1⟩
        responses := s.responses ++ [⟨3, 3⟩] }) ∧
  ∀ s : State,
    let read (c : Csr) : Nat := (s.readCsr c).toNat
    let packed (z : Cplx) : Nat := z.im.toNat * 2 ^ 16 + z.re.toNat
    let bit (b : Bool) : Nat := if b then 1 else 0
    (read .cfgK = s.cfg.k.toNat ∧ read .cfgM = s.cfg.m.toNat ∧ read .cfgBeta = s.cfg.beta.toNat ∧
      read .cfgShape = s.cfg.shape.toNat ∧ read .cfgMod = s.cfg.mod.toNat ∧ read .cfgDecim = s.cfg.decim.toNat ∧
      read .cfgBw = s.cfg.bw.toNat ∧ read .inBase = s.cfg.inBase.toNat ∧ read .outBase = s.cfg.outBase.toNat ∧
      read .outCap = s.cfg.outCap.toNat) ∧
    (read .actK = s.act.k.toNat ∧ read .actM = s.act.m.toNat ∧ read .actBeta = s.act.beta.toNat ∧
      read .actShape = s.act.shape.toNat ∧ read .actMod = s.act.mod.toNat ∧ read .actDecim = s.act.decim.toNat ∧
      read .bw = s.act.bw.toNat ∧ read .ntaps = s.act.ntaps.toNat ∧ read .stepNom = s.act.stepNom.toNat) ∧
    (read .status = bit s.created + 2 * bit s.errs.err ∧ read .errcode = s.errs.code.toNat ∧
      read .errinfo = s.errs.info.toNat ∧ read .errcmd = s.errs.cmd.toNat ∧ read .errcnt = s.errs.cnt.toNat) ∧
    (read .agcGain = s.sync.gain.toNat ∧ read .dph = s.sync.dph.toNat ∧ read .tau = s.sync.tau.toNat ∧
      (s.readCsr .tint).toInt = s.sync.tint.toInt ∧ (s.readCsr .tv).toInt = s.sync.tv.toInt ∧
      read .half = bit s.sync.half ∧ read .yon = packed s.sync.yon ∧ read .ymid = packed s.sync.ymid ∧
      read .theta = s.sync.theta.toNat ∧ (s.readCsr .freq).toInt = s.sync.freq.toInt ∧
      read .symcnt = s.sync.symcnt.toNat ∧ read .outlen = s.outLen.toNat) ∧
    (read .w0 = packed s.sync.w0 ∧ read .w1 = packed s.sync.w1 ∧ read .w2 = packed s.sync.w2 ∧
      read .w3 = packed s.sync.w3)

/-- R33, R46: no register reads a bit outside the bits of R34: `NTAPS` 9:0, `STATUS` 1:0, `ERRCODE` 3:0,
`AGC_GAIN` 23:0, `DPH` 7:0, `HALF` 0, `OUTLEN` and every register at 0x00 to 0x16 15:0. -/
def Obligations.NarrowCsrsReadZeroExtended : Prop :=
  ∀ s : State,
    (∀ c, (csrAddr c).toNat ≤ 0x16 → (s.readCsr c).toNat < 2 ^ 16) ∧
    (s.readCsr .ntaps).toNat < 2 ^ 10 ∧ (s.readCsr .errcode).toNat < 2 ^ 4 ∧
    (s.readCsr .agcGain).toNat < 2 ^ 24 ∧ (s.readCsr .dph).toNat < 2 ^ 8 ∧
    (s.readCsr .outlen).toNat < 2 ^ 16 ∧
    (s.readCsr .half).toNat = (if s.sync.half then 1 else 0) ∧
    (s.readCsr .status).toNat = (if s.created then 1 else 0) + (if s.errs.err then 2 else 0)

/-- R145: the seven tests of CREATE, each with its bit of the cause, all reported together, and the error. -/
def Obligations.CreateReportsEveryFailingTest : Prop :=
  ∀ s : State,
    let g := s.cfg
    let cause := createCause g
    (cause.testBit 0 = true ↔ g.k.toNat < 2) ∧
    (cause.testBit 1 = true ↔ g.m.toNat < 1) ∧
    (cause.testBit 2 = true ↔ g.beta.toNat = 0 ∨ 32768 < g.beta.toNat) ∧
    (cause.testBit 3 = true ↔ g.bw.toNat = 0) ∧
    (cause.testBit 4 = true ↔
      g.decim.toNat = 0 ∨ (g.decim.toNat ≠ 0 ∧ g.k.toNat % g.decim.toNat ≠ 0) ∨
        (g.decim.toNat ≠ 0 ∧ g.k.toNat / g.decim.toNat < 2)) ∧
    (cause.testBit 5 = true ↔ 2 < g.mod.toNat) ∧
    (cause.testBit 6 = true ↔ 512 < 2 * g.k.toNat * g.m.toNat + 1) ∧
    cause < 128 ∧
    (cause ≠ 0 → exec .create s = .next { s with
      errs := ⟨true, 1, BitVec.ofNat 32 cause, 0x30000000, s.errs.cnt + 1⟩
      responses := s.responses ++ [⟨1, BitVec.ofNat 32 cause⟩] })

/-- R146: a CREATE whose staged values pass the tests installs them, derives `NTAPS` and `STEP_NOM`, gives the
synchronizer its initial state with HIST all zero, sets `CREATED`, answers (OK, 0), changes nothing else, and
leaves every range the datapath relies on. -/
def Obligations.CreateInstallsTheStagedConfiguration : Prop :=
  ∀ s : State,
    let g := s.cfg
    2 ≤ g.k.toNat → 1 ≤ g.m.toNat → 1 ≤ g.beta.toNat → g.beta.toNat ≤ 32768 → 1 ≤ g.bw.toNat →
    1 ≤ g.decim.toNat → g.k.toNat % g.decim.toNat = 0 → 2 ≤ g.k.toNat / g.decim.toNat → g.mod.toNat ≤ 2 →
    2 * g.k.toNat * g.m.toNat + 1 ≤ 512 →
    ∃ t, exec .create s = .next t ∧
      t = { s with act := t.act, sync := t.sync, outLen := 0, created := true,
                   responses := s.responses ++ [⟨0, 0⟩] } ∧
      t.act.k = g.k ∧ t.act.m = g.m ∧ t.act.beta = g.beta ∧ t.act.shape = g.shape ∧ t.act.mod = g.mod ∧
      t.act.decim = g.decim ∧ t.act.bw = g.bw ∧
      t.act.ntaps.toNat = 2 * g.k.toNat * g.m.toNat + 1 ∧
      t.act.stepNom.toNat = g.k.toNat / g.decim.toNat * 2 ^ 23 ∧
      t.sync = ⟨0x010000, 0, List.replicate 512 ⟨0, 0⟩, ⟨0, 0⟩, ⟨0, 0⟩, ⟨0, 0⟩, ⟨0, 0⟩, 0, 0, 0, false,
        ⟨0, 0⟩, ⟨0, 0⟩, 0, 0, 0⟩ ∧
      2 ≤ t.act.k2 ∧ t.act.k2 ≤ 255 ∧ 5 ≤ t.act.ntaps.toNat ∧ t.act.ntaps.toNat ≤ 511 ∧
      t.act.Legal ∧ t.sync.InRange t.act

/-- R149, R150: SETBW. Without an instance NotCreated, even for 0; with one, 0 is refused at once and `BW` is
kept, and any other value replaces `BW` and nothing else. -/
def Obligations.SetbwReplacesTheBandwidthAlone : Prop :=
  ∀ (s : State) (imm : Half),
    let w : Word := BitVec.ofNat 32 (0x40000000 + imm.toNat)
    (s.created = false → exec (.setbw imm) s = .next { s with
      errs := ⟨true, 4, 0, w, s.errs.cnt + 1⟩
      responses := s.responses ++ [⟨4, 0⟩] }) ∧
    (s.created = true → imm = 0 → exec (.setbw imm) s = .next { s with
      errs := ⟨true, 1, 8, w, s.errs.cnt + 1⟩
      responses := s.responses ++ [⟨1, 8⟩] }) ∧
    (s.created = true → imm ≠ 0 → exec (.setbw imm) s = .next { s with
      act := { s.act with bw := imm }
      responses := s.responses ++ [⟨0, 0⟩] })

/-- R151: DESTROY clears `CREATED` and nothing else; without an instance it raises NotCreated. -/
def Obligations.DestroyClearsCreatedAlone : Prop :=
  ∀ s : State,
    (s.created = true → exec .destroy s = .next { s with
      created := false
      responses := s.responses ++ [⟨0, 0⟩] }) ∧
    (s.created = false → exec .destroy s = .next { s with
      errs := ⟨true, 4, 0, 0x60000000, s.errs.cnt + 1⟩
      responses := s.responses ++ [⟨4, 0⟩] })

/-! ## Every command -/

/-- R153: the lifecycle of an instance on `CREATED`. -/
def Obligations.LifecycleFollowsTheTwoStateMachine : Prop :=
  ∀ (i : Instr) (s t : State), exec i s = .next t →
    t.created = (match i with
      | .create => s.created || decide (createCause s.cfg = 0)
      | .destroy => false
      | .reset => false
      | .nop | .wrcsr _ _ | .rdcsr _ | .setbw _ | .exec _ => s.created)

/-- R247: SETBW, EXEC and DESTROY raise NotCreated(0) whenever `CREATED` is 0, before any other test; NOP,
WRCSR, RDCSR, CREATE and RESET never do. -/
def Obligations.NotCreatedIsRaisedByThreeCommands : Prop :=
  (∀ (i : Instr) (s : State), (i.opcode = .setbw ∨ i.opcode = .exec ∨ i.opcode = .destroy) →
    s.created = false →
    exec i s = .next { s with
      errs := ⟨true, 4, 0, encode i, s.errs.cnt + 1⟩
      responses := s.responses ++ [⟨4, 0⟩] }) ∧
  ∀ (i : Instr) (s t : State), (i.opcode ≠ .setbw ∧ i.opcode ≠ .exec ∧ i.opcode ≠ .destroy) →
    exec i s = .next t → ∃ r, t.responses = s.responses ++ [r] ∧ r.status ≠ 4

/-- R116: every command word, legal or not, gives exactly one response, after those before it. With status OK
its data is the register for RDCSR, the number of symbols (the new `OUTLEN`) for EXEC and 0 for every other
command; with an error it is the new `ERRINFO`, and the status the new `ERRCODE`; an illegal word never gives
OK. -/
def Obligations.EveryCommandGivesOneResponse : Prop :=
  ∀ (s : State) (w : Word) (rest : List HostMove), s.pending = .issue w :: rest →
    ∃ t r, step s = .next t ∧ t.responses = s.responses ++ [r] ∧ t.pending = rest ∧
    (r.status ≠ 0 → r.data = t.errs.info ∧ r.status = t.errs.code) ∧
    (r.status = 0 → ∃ i, decode w = .ok i ∧ (match i with
      | .rdcsr a => ∃ c, csrAddr c = a ∧ r.data = s.readCsr c
      | .exec n => r.data = BitVec.ofNat 32 (blockResult s n.toNat).2.length ∧
          t.outLen = BitVec.ofNat 16 (blockResult s n.toNat).2.length
      | .nop | .wrcsr _ _ | .create | .setbw _ | .destroy | .reset => r.data = 0))

/-- R249: which command can end with which error. -/
def Obligations.EachCommandRaisesOnlyItsErrors : Prop :=
  ∀ (i : Instr) (s t : State) (r : Response), exec i s = .next t → t.responses = s.responses ++ [r] →
    r.status = 0 ∨ (match i with
      | .nop => False
      | .wrcsr _ _ => r.status = 3 ∧ (r.data = 3 ∨ r.data = 4)
      | .rdcsr _ => r.status = 3 ∧ r.data = 3
      | .create => r.status = 1
      | .setbw _ => (r.status = 4 ∧ r.data = 0) ∨ (r.status = 1 ∧ r.data = 8)
      | .exec _ => (r.status = 4 ∧ r.data = 0) ∨ r.status = 2
      | .destroy => r.status = 4 ∧ r.data = 0
      | .reset => False)

/-- R244, R245: a command word that ends with an error, legal or not, writes the five error registers as R244
says, responds, and changes nothing else. -/
def Obligations.ErrorsChangeTheErrorRegistersAlone : Prop :=
  ∀ (s t : State) (w : Word) (rest : List HostMove) (r : Response), s.pending = .issue w :: rest →
    step s = .next t → t.responses = s.responses ++ [r] → r.status ≠ 0 →
    t = { s with
      pending := rest
      errs := ⟨true, r.status, r.data, w, s.errs.cnt + 1⟩
      responses := s.responses ++ [r] }

/-- R32, R46, R250: a command that ends without error, other than RESET, leaves `ERR` and the four error
registers as they are; no command but RESET clears `ERR`. -/
def Obligations.SuccessKeepsTheErrorRegisters : Prop :=
  ∀ (i : Instr) (s t : State) (r : Response), exec i s = .next t → i ≠ .reset →
    t.responses = s.responses ++ [r] →
    (r.status = 0 → t.errs = s.errs) ∧ (s.errs.err = true → t.errs.err = true)

/-- R33, R34 ("written by"), R43, R80: the frame of every command. The staged registers are written by WRCSR
and reset, the active configuration by CREATE, SETBW and reset, the synchronizer state and `OUTLEN` by EXEC,
CREATE and reset, OUT by EXEC; COEF and IN by no command. -/
def Obligations.EachCommandWritesOnlyItsOwnState : Prop :=
  ∀ (i : Instr) (s t : State), exec i s = .next t →
    (i.opcode ≠ .wrcsr → i.opcode ≠ .reset → t.cfg = s.cfg) ∧
    (i.opcode ≠ .create → i.opcode ≠ .setbw → i.opcode ≠ .reset → t.act = s.act) ∧
    (i.opcode ≠ .exec → i.opcode ≠ .create → i.opcode ≠ .reset → t.sync = s.sync ∧ t.outLen = s.outLen) ∧
    (i.opcode ≠ .exec → t.outMem = s.outMem) ∧
    t.coefMem = s.coefMem ∧ t.inMem = s.inMem ∧ t.pending = s.pending ∧ t.hostReads = s.hostReads

/-! ## EXEC -/

/-- R172: with an instance, EXEC raises CapacityError if and only if `OUT_CAP < CAPREQ(N)`, with the info value
`CAPREQ(N) = ((32 * N) div (31 * k)) + 3` and nothing else changed; and the values the rule lists. -/
def Obligations.ExecChecksTheCapacityFirst : Prop :=
  (∀ (s : State) (imm : Half), s.created = true →
    let need := 32 * imm.toNat / (31 * s.act.k.toNat) + 3
    (s.cfg.outCap.toNat < need → exec (.exec imm) s = .next { s with
      errs := ⟨true, 2, BitVec.ofNat 32 need, BitVec.ofNat 32 (0x50000000 + imm.toNat), s.errs.cnt + 1⟩
      responses := s.responses ++ [⟨2, BitVec.ofNat 32 need⟩] }) ∧
    (need ≤ s.cfg.outCap.toNat → ∃ t r, exec (.exec imm) s = .next t ∧
      t.responses = s.responses ++ [r] ∧ r.status = 0)) ∧
  capReq 0 2 = 3 ∧ capReq 8 2 = 7 ∧ capReq 8000 2 = 4132 ∧ capReq 8072 2 = 4169 ∧ capReq 65535 2 = 33827 ∧
  capReq 8000 4 = 2067

/-- R170, R173, R82, R85: an EXEC that passes its tests answers a next state: the synchronizer state is the one
the block loop ends in, its symbols stand in OUT from `OUT_BASE` on, wrapping, in order; every other byte of
OUT, and everything but the synchronizer state, OUT, `OUTLEN` and the response, is as it was; the response and
`OUTLEN` are their number, and `SYMCNT` has grown by it. -/
def Obligations.ExecWritesTheSymbolsOfItsBlock : Prop :=
  ∀ (s : State) (imm : Half), s.Inv → s.execPasses imm.toNat →
    ∃ t st symbols,
      (st, symbols) = runBlock s.act s.coefMem s.sync
        ((List.range imm.toNat).map fun i =>
          unpack (s.inMem.readWord ((s.cfg.inBase.toNat + i) % 65536))) ∧
      exec (.exec imm) s = .next t ∧
      t = { s with
        sync := st, outMem := t.outMem, outLen := t.outLen
        responses := s.responses ++ [⟨0, BitVec.ofNat 32 symbols.length⟩] } ∧
      t.outLen.toNat = symbols.length ∧ symbols.length ≤ s.cfg.outCap.toNat ∧
      t.sync.symcnt = s.sync.symcnt + BitVec.ofNat 32 symbols.length ∧
      (∀ (j : Nat) (r : Cplx), symbols[j]? = some r →
        t.outMem.readWord ((s.cfg.outBase.toNat + j) % 65536) = pack r) ∧
      (∀ x, (∀ j < symbols.length, x / 4 ≠ (s.cfg.outBase.toNat + j) % 65536) →
        t.outMem.readByte x = s.outMem.readByte x)

/-- R176 (a): an empty block that passes the capacity check changes `OUTLEN` to 0 and nothing else, with
response (OK, 0). -/
def Obligations.ExecOfAnEmptyBlockChangesOnlyOutlen : Prop :=
  ∀ s : State, s.created = true → 3 ≤ s.cfg.outCap.toNat →
    exec (.exec 0) s = .next { s with outLen := 0, responses := s.responses ++ [⟨0, 0⟩] }

/-- R178: a block of N samples emits at most `((32 * N) div (31 * k)) + 2` symbols. -/
def Obligations.BlockEmitsFewerSymbolsThanItsBound : Prop :=
  ∀ (s : State) (n : Nat), s.Inv → s.created = true →
    (blockResult s n).2.length ≤ 32 * n / (31 * s.act.k.toNat) + 2

/-- R177: two blocks one after the other give what one block of all their samples gives: a total count equal
to the one response, and the same state but for `OUTLEN`, the responses and the staged buffer addresses. -/
def Obligations.SplitBlocksGiveWhatOneBlockGives : Prop :=
  ∀ (s t1 t2 u : State) (n1 n2 n : Half), s.Inv → n.toNat = n1.toNat + n2.toNat →
    s.execPasses n1.toNat → s.execPasses n2.toNat → s.execPasses n.toNat →
    exec (.exec n1) s = .next t1 →
    exec (.exec n2)
      { t1 with cfg := { t1.cfg with
          inBase := s.cfg.inBase + n1
          outBase := s.cfg.outBase + t1.outLen } } = .next t2 →
    exec (.exec n) s = .next u →
    t2 = { u with cfg := t2.cfg, outLen := t2.outLen, responses := t2.responses } ∧
    t1.outLen.toNat + t2.outLen.toNat = u.outLen.toNat ∧
    ∃ r1 r2 r, t1.responses = s.responses ++ [r1] ∧ t2.responses = t1.responses ++ [r2] ∧
      u.responses = s.responses ++ [r] ∧ r1.data.toNat = t1.outLen.toNat ∧ r2.data.toNat = t2.outLen.toNat ∧
      r.data.toNat = u.outLen.toNat

/-- R141, R293: a write of a construction parameter (`CFG_K` to `CFG_BW`) while an instance exists changes
nothing an EXEC does with it: the EXEC after the write gives the state, but for the staged configuration and
the responses, that it gives without it. -/
def Obligations.StagedWritesDoNotReachTheInstance : Prop :=
  ∀ (s t u v : State) (a : BitVec 8) (imm n : Half), a.toNat ≤ 6 → s.created = true →
    exec (.wrcsr a imm) s = .next t → exec (.exec n) t = .next u → exec (.exec n) s = .next v →
    u = { v with cfg := t.cfg, responses := u.responses } ∧
    u.responses.getLast? = v.responses.getLast?

/-! ## Step 1: the gain normaliser -/

/-- R174: `AGC(x)`, with every narrowing written out. -/
def Obligations.AgcNormalisesAndMovesTheGain : Prop :=
  ∀ (st : Sync) (x : Cplx),
    let g : Int := st.gain.toNat
    let y := (agc st x).2
    let e : Int := y.re.toInt * y.re.toInt + y.im.toInt * y.im.toInt
    y.re.toInt = max (-32768) (min 32767 (g * x.re.toInt / 2 ^ 16)) ∧
    y.im.toInt = max (-32768) (min 32767 (g * x.im.toInt / 2 ^ 16)) ∧
    0 ≤ e ∧ e ≤ 2 ^ 31 ∧
    (((agc st x).1.gain.toNat : Nat) : Int) =
      max 0x000100 (min 0xFFFFFF (g + g * (2 ^ 26 - e) / 2 ^ 34)) ∧
    (agc st x).1 = { st with gain := (agc st x).1.gain }

/-- R175 (a): silence gives (0, 0) and raises the gain by `GAIN >> 8` up to its maximum. -/
def Obligations.SilenceRaisesTheGain : Prop :=
  ∀ st : Sync, Config.gainMin ≤ st.gain.toNat →
    (agc st ⟨0, 0⟩).2 = ⟨0, 0⟩ ∧
    (agc st ⟨0, 0⟩).1.gain.toNat = min 0xFFFFFF (st.gain.toNat + st.gain.toNat / 256)

/-- R175 (d): a gain of at least 10182 stays so in every step, the power-on state has one, and so the gain never
falls below 10182 in any run. -/
def Obligations.GainNeverFallsBelowItsFloor : Prop :=
  (∀ s t : State, 10182 ≤ s.sync.gain.toNat → step s = .next t → 10182 ≤ t.sync.gain.toNat) ∧
  (∀ (coef inp out : Nat) (moves : List HostMove),
    10182 ≤ ({ State.atPowerOn coef inp out with pending := moves } : State).sync.gain.toNat) ∧
  ∀ s : State, Reachable s → 10182 ≤ s.sync.gain.toNat

/-! ## Step 2: the matched-filter decimator -/

/-- R191: the shift of the delay line: the new output in front, each of the next `L - 1` entries one place
on, the entries beyond `L` untouched, the length kept. -/
def Obligations.DelayLineShiftsByOneSample : Prop :=
  ∀ (l : Nat) (hist : List Cplx) (y : Cplx), 1 ≤ l → l ≤ hist.length →
    (shiftHist l hist y).length = hist.length ∧
    histAt (shiftHist l hist y) 0 = y ∧
    (∀ j, 1 ≤ j → j < l → histAt (shiftHist l hist y) j = histAt hist (j - 1)) ∧
    (∀ j, l ≤ j → histAt (shiftHist l hist y) j = histAt hist j)

/-- R192: the filter output is the floor by 2^15, saturated, of the exact sum over the taps; with up to 511 taps
each sum is within 511 * 2^30. -/
def Obligations.FilterSumIsExactAndBounded : Prop :=
  ∀ (coef : Memory) (l : Nat) (hist : List Cplx), l ≤ 511 →
    let accr : Int := ((List.range l).map fun j => (coef.readHalf j).toInt * (histAt hist j).re.toInt).sum
    let acci : Int := ((List.range l).map fun j => (coef.readHalf j).toInt * (histAt hist j).im.toInt).sum
    |accr| ≤ 511 * 2 ^ 30 ∧ |acci| ≤ 511 * 2 ^ 30 ∧
    (fir coef l hist).re.toInt = max (-32768) (min 32767 (accr / 2 ^ 15)) ∧
    (fir coef l hist).im.toInt = max (-32768) (min 32767 (acci / 2 ^ 15))

/-- R191, R192, R193: a block of N samples advances `DPH` by N modulo D. A sample that arrives when `DPH` is not
0 computes no MF output: it changes the gain, the delay line and `DPH` alone, and emits nothing. A sample that
arrives when `DPH` is 0 shifts the delay line, hands the filter output over the shifted line to TIMING, emits
what TIMING emits, and then advances `DPH`. -/
def Obligations.DecimatorKeepsItsPhase : Prop :=
  (∀ (a : Active) (coef : Memory) (st : Sync) (xs : List Cplx), st.dph.toNat < a.decim.toNat →
    a.decim.toNat ≤ 255 →
    (runBlock a coef st xs).1.dph.toNat = (st.dph.toNat + xs.length) % a.decim.toNat) ∧
  (∀ (a : Active) (coef : Memory) (st : Sync) (x : Cplx), st.dph ≠ 0 →
    (runSample a coef st x).2 = [] ∧
    (runSample a coef st x).1 = { st with
      gain := (agc st x).1.gain
      hist := shiftHist a.ntaps.toNat st.hist (agc st x).2
      dph := BitVec.ofNat 8 ((st.dph.toNat + 1) % a.decim.toNat) }) ∧
  ∀ (a : Active) (coef : Memory) (st : Sync) (x : Cplx), st.dph = 0 →
    let shifted := shiftHist a.ntaps.toNat st.hist (agc st x).2
    let r := timing a { st with gain := (agc st x).1.gain, hist := shifted } (fir coef a.ntaps.toNat shifted)
    (runSample a coef st x).2 = r.2 ∧
    (runSample a coef st x).1 = { r.1 with dph := BitVec.ofNat 8 (1 % a.decim.toNat) }

/-! ## Step 3: timing recovery -/

/-- R204, R210 (a) to (c): the interpolant of a component, exactly, and both components of the window with it; at
`mu` = 0 it is `w1`; a constant window gives the constant; a linear ramp is interpolated exactly up to the
floor. -/
def Obligations.InterpolatorReproducesRamps : Prop :=
  (∀ w0 w1 w2 w3 mu : Int,
    let a := w3 - w2 - w1 + w0
    let b := -w3 + 3 * w2 - w1 - w0
    farrowF w0 w1 w2 w3 mu =
      max (-32768) (min 32767 ((w1 * 2 ^ 31 + (a * mu + b * 2 ^ 15) * mu) / 2 ^ 31))) ∧
  (∀ (st : Sync) (mu : Int),
    (farrow st mu).re.toInt = farrowF st.w0.re.toInt st.w1.re.toInt st.w2.re.toInt st.w3.re.toInt mu ∧
    (farrow st mu).im.toInt = farrowF st.w0.im.toInt st.w1.im.toInt st.w2.im.toInt st.w3.im.toInt mu) ∧
  (∀ w0 w1 w2 w3 : Int, -32768 ≤ w1 → w1 ≤ 32767 → farrowF w0 w1 w2 w3 0 = w1) ∧
  (∀ c mu : Int, -32768 ≤ c → c ≤ 32767 → farrowF c c c c mu = c) ∧
  ∀ a d mu : Int, -32768 ≤ a + d + d * mu / 32768 → a + d + d * mu / 32768 ≤ 32767 →
    farrowF a (a + d) (a + 2 * d) (a + 3 * d) mu = a + d + d * mu / 32768

/-- R205, R206: an on-time strobe stores `YON` and calls CARRIER on the interpolant: it emits exactly CARRIER's
symbol, takes its `THETA` and `FREQ`, counts one symbol, sets `HALF`, and does not touch the timing loop. -/
def Obligations.OnTimeStrobeEmitsOneSymbol : Prop :=
  ∀ (a : Active) (st : Sync) (y : Cplx), st.half = false →
    (strobe a st y).2 = [(carrier a st y).2] ∧
    (strobe a st y).1 = { st with
      yon := y, half := true, symcnt := st.symcnt + 1
      theta := (carrier a st y).1.theta, freq := (carrier a st y).1.freq }

/-- R205, R207, R208: a mid strobe emits nothing, moves the timing loop by the early-late error, stores `YMID`,
clears `HALF`, and does not touch the carrier loop. -/
def Obligations.MidStrobeMovesTheTimingLoop : Prop :=
  ∀ (a : Active) (st : Sync) (y : Cplx), st.half = true →
    let e : Int := st.yon.re.toInt * (y.re.toInt - st.ymid.re.toInt) +
      st.yon.im.toInt * (y.im.toInt - st.ymid.im.toInt)
    let t := (strobe a st y).1
    let vmax : Int := a.stepNom.toNat / 2 ^ 5
    let k2 : Int := a.k.toNat / a.decim.toNat
    let bw : Int := a.bw.toNat
    (strobe a st y).2 = [] ∧ -(2 ^ 32 - 2 ^ 16) ≤ e ∧ e ≤ 2 ^ 32 - 2 ^ 16 ∧
    t = { st with ymid := y, half := false, tint := t.tint, tv := t.tv } ∧
    t.tint.toInt = max (-vmax) (min vmax (st.tint.toInt + k2 * bw * bw * e / 2 ^ 37)) ∧
    t.tv.toInt = max (-vmax) (min vmax (k2 * bw * e / 2 ^ 19 + t.tint.toInt))

/-- R202, R203: a pass of the strobe loop interpolates at `mu = TAU >> 9`, which is 0 to 32767, strobes, and
adds `STEP_NOM` and the `TV` the strobe left to `TAU`, without wrapping. The loop makes a pass while `TAU` is
below `ONE_T`. TIMING shifts the window, runs the loop and takes `ONE_T` from `TAU`, emitting what the loop
emits; with `TAU` at or above `ONE_T` on entry there is no strobe. The bound of two passes is log 11. -/
def Obligations.StrobePassSchedulesTheNextStrobe : Prop :=
  (∀ (a : Active) (st : Sync), a.Legal → st.InRange a → st.tau.toNat < Config.oneT →
    let mu : Int := st.tau.toNat / 2 ^ 9
    let t := (strobePass a st).1
    0 ≤ mu ∧ mu ≤ 32767 ∧
    (strobePass a st).2 = (strobe a st (farrow st mu)).2 ∧
    t = { (strobe a st (farrow st mu)).1 with tau := t.tau } ∧
    ((t.tau.toNat : Nat) : Int) = st.tau.toNat + a.stepNom.toNat + t.tv.toInt) ∧
  (∀ (a : Active) (st : Sync) (n : Nat),
    (Config.oneT ≤ st.tau.toNat → strobeLoop a n st = (st, [])) ∧
    (st.tau.toNat < Config.oneT →
      (strobeLoop a (n + 1) st).1 = (strobeLoop a n (strobePass a st).1).1 ∧
      (strobeLoop a (n + 1) st).2 = (strobePass a st).2 ++ (strobeLoop a n (strobePass a st).1).2)) ∧
  ∀ (a : Active) (st : Sync) (z : Cplx),
    let shifted := { st with w0 := st.w1, w1 := st.w2, w2 := st.w3, w3 := z }
    let t := (timing a st z).1
    (t.w0 = st.w1 ∧ t.w1 = st.w2 ∧ t.w2 = st.w3 ∧ t.w3 = z) ∧
    (timing a st z).2 = (strobeLoop a 2 shifted).2 ∧
    t = { (strobeLoop a 2 shifted).1 with tau := t.tau } ∧
    (a.Legal → st.InRange a → t.tau.toNat + 2 ^ 24 = (strobeLoop a 2 shifted).1.tau.toNat) ∧
    (Config.oneT ≤ st.tau.toNat → (timing a st z).2 = [] ∧
      t = { shifted with tau := t.tau } ∧ t.tau.toNat + 2 ^ 24 = st.tau.toNat)

/-- R211: with an instance the strobe loop ends after at most two passes (one when `K2 >= 3`): more passes
change nothing; and a call of TIMING emits at most one symbol and leaves `TAU` in its range. -/
def Obligations.StrobeLoopEndsInTwoPasses : Prop :=
  ∀ (a : Active) (st : Sync) (z : Cplx), a.Legal → st.InRange a →
    (∀ n, strobeLoop a (2 + n) st = strobeLoop a 2 st) ∧
    (3 ≤ a.k2 → ∀ n, strobeLoop a (1 + n) st = strobeLoop a 1 st) ∧
    Config.oneT ≤ (strobeLoop a 2 st).1.tau.toNat ∧
    (timing a st z).2.length ≤ 1 ∧
    (timing a st z).1.InRange a

/-! ## Steps 4 and 5: carrier recovery and the symbol -/

/-- R222 to R225: CARRIER derotates with the phase as it was, and only then updates the loop: `FREQ` saturates,
`THETA` advances by the new `FREQ` and the proportional term modulo 2^32; one symbol is counted and nothing
else changes. -/
def Obligations.CarrierDerotatesThenUpdates : Prop :=
  ∀ (a : Active) (st : Sync) (y : Cplx),
    let c : Int := (cosSin (st.theta.toNat / 2 ^ 22)).1
    let s : Int := (cosSin (st.theta.toNat / 2 ^ 22)).2
    let r := (carrier a st y).2
    let e : Int := phaseDet a.mod r
    let bw : Int := a.bw.toNat
    let t := (carrier a st y).1
    r.re.toInt = max (-32768) (min 32767 ((y.re.toInt * c + y.im.toInt * s) / 2 ^ 15)) ∧
    r.im.toInt = max (-32768) (min 32767 ((y.im.toInt * c - y.re.toInt * s) / 2 ^ 15)) ∧
    t.freq.toInt = max (-2 ^ 31) (min (2 ^ 31 - 1) (st.freq.toInt + bw * bw * e / 2 ^ 18)) ∧
    ((t.theta.toNat : Nat) : Int) = ((st.theta.toNat : Int) + t.freq.toInt + bw * e) % 2 ^ 32 ∧
    t = { st with freq := t.freq, theta := t.theta, symcnt := st.symcnt + 1 }

/-- R224: the phase detectors: 0 without a scheme, the decision-directed errors of BPSK and QPSK with zero
counted as positive, and their ranges. -/
def Obligations.PhaseDetectorStaysInItsRange : Prop :=
  ∀ r : Cplx,
    let rr := r.re.toInt
    let ri := r.im.toInt
    phaseDet 0 r = 0 ∧
    phaseDet 1 r = (if 0 ≤ rr then ri else -ri) ∧
    phaseDet 2 r = (if (0 ≤ rr ↔ 0 ≤ ri) then |ri| - |rr| else |rr| - |ri|) ∧
    ∀ m : Half, m.toNat ≤ 2 → -32768 ≤ phaseDet m r ∧ phaseDet m r ≤ 32768

/-- R226: every point of the table's circle lies in -32767 to 32767, and the twelve values the rule lists. -/
def Obligations.CosSinIsWithinItsAmplitude : Prop :=
  (∀ idx < 1024, -32767 ≤ (cosSin idx).1 ∧ (cosSin idx).1 ≤ 32767 ∧ -32767 ≤ (cosSin idx).2 ∧
    (cosSin idx).2 ≤ 32767) ∧
  cosSin 0 = (32767, 0) ∧ cosSin 1 = (32766, 201) ∧ cosSin 128 = (23170, 23170) ∧ cosSin 255 = (201, 32766) ∧
  cosSin 256 = (0, 32767) ∧ cosSin 257 = (-201, 32766) ∧ cosSin 384 = (-23170, 23170) ∧
  cosSin 512 = (-32767, 0) ∧ cosSin 640 = (-23170, -23170) ∧ cosSin 768 = (0, -32767) ∧
  cosSin 896 = (23170, -23170) ∧ cosSin 1023 = (32766, -201)

/-- R224: with `ACT_MOD` = 0 the loop is open: from `FREQ` = 0 no block moves `FREQ` or `THETA`. -/
def Obligations.OpenLoopKeepsThePhase : Prop :=
  ∀ (s t : State) (n : Half), s.act.mod = 0 → s.sync.freq = 0 → exec (.exec n) s = .next t →
    t.sync.freq = 0 ∧ t.sync.theta = s.sync.theta

/-! ## Whole blocks -/

/-- R176 (e): the first symbol of an instance comes at its very first sample and is (0, 0), whatever the
samples, COEF and the configuration. -/
def Obligations.FirstSymbolOfAnInstanceIsZero : Prop :=
  ∀ (s t : State) (n : Nat), exec .create s = .next t → createCause s.cfg = 0 → 1 ≤ n →
    (blockResult t n).2.head? = some ⟨0, 0⟩

/-- R285, R213 (a), (b): eight zero samples to a fresh instance with the reset configuration give four symbols,
whatever COEF holds, all of them (0, 0). -/
def Obligations.SilentBlockOfEightGivesFourZeroSymbols : Prop :=
  ∀ s : State, s.cfg = { Staged.reset with outCap := 7 } →
    (∀ i < 8, s.inMem.readWord i = 0) →
    ∃ t u, exec .create s = .next t ∧ exec (.exec 8) t = .next u ∧
      u.responses = s.responses ++ [⟨0, 0⟩, ⟨0, 4⟩] ∧
      (blockResult t 8).2 = [⟨0, 0⟩, ⟨0, 0⟩, ⟨0, 0⟩, ⟨0, 0⟩]

/-! ## The invariant -/

/-- R61, R282 with the model's form of the memories (log 1, log 2): the state after power-on meets the
invariant, whatever the memories hold and whatever the host will do. -/
def Obligations.PowerOnStateMeetsTheInvariant : Prop :=
  (∀ (coef inp out : Nat) (moves : List HostMove),
    State.Inv { State.atPowerOn coef inp out with pending := moves }) ∧ State.reset.Inv

/-- R45 to R51, R209, R211, R46 and the canonical form of the memories: every step keeps the invariant, from
every state that meets it. -/
def Obligations.EveryStepKeepsTheInvariant : Prop :=
  ∀ s t : State, s.Inv → step s = .next t → t.Inv
end

