-- ==== Sys2Proof/Laws/State.lean ====
section
/-!
SUPPORT. What each named update of the state does to each field, by `rfl`, so that no proof unfolds a record
update.
-/

namespace Sys2Proof.Machine

section respond
variable (s : State) (d : Word)
@[simp] theorem State.respond_cfg : (s.respond d).cfg = s.cfg := rfl
@[simp] theorem State.respond_act : (s.respond d).act = s.act := rfl
@[simp] theorem State.respond_created : (s.respond d).created = s.created := rfl
@[simp] theorem State.respond_errs : (s.respond d).errs = s.errs := rfl
@[simp] theorem State.respond_sync : (s.respond d).sync = s.sync := rfl
@[simp] theorem State.respond_outLen : (s.respond d).outLen = s.outLen := rfl
@[simp] theorem State.respond_coefMem : (s.respond d).coefMem = s.coefMem := rfl
@[simp] theorem State.respond_inMem : (s.respond d).inMem = s.inMem := rfl
@[simp] theorem State.respond_outMem : (s.respond d).outMem = s.outMem := rfl
@[simp] theorem State.respond_pending : (s.respond d).pending = s.pending := rfl
@[simp] theorem State.respond_responses : (s.respond d).responses = s.responses ++ [⟨0, d⟩] := rfl
@[simp] theorem State.respond_hostReads : (s.respond d).hostReads = s.hostReads := rfl
end respond

section raise
variable (s : State) (e : ErrorKind) (info w : Word)
@[simp] theorem State.raise_cfg : (s.raise e info w).cfg = s.cfg := rfl
@[simp] theorem State.raise_act : (s.raise e info w).act = s.act := rfl
@[simp] theorem State.raise_created : (s.raise e info w).created = s.created := rfl
@[simp] theorem State.raise_errs :
    (s.raise e info w).errs = ⟨true, e.code, info, w, s.errs.cnt + 1⟩ := rfl
@[simp] theorem State.raise_sync : (s.raise e info w).sync = s.sync := rfl
@[simp] theorem State.raise_outLen : (s.raise e info w).outLen = s.outLen := rfl
@[simp] theorem State.raise_coefMem : (s.raise e info w).coefMem = s.coefMem := rfl
@[simp] theorem State.raise_inMem : (s.raise e info w).inMem = s.inMem := rfl
@[simp] theorem State.raise_outMem : (s.raise e info w).outMem = s.outMem := rfl
@[simp] theorem State.raise_pending : (s.raise e info w).pending = s.pending := rfl
@[simp] theorem State.raise_responses :
    (s.raise e info w).responses = s.responses ++ [⟨e.code, info⟩] := rfl
@[simp] theorem State.raise_hostReads : (s.raise e info w).hostReads = s.hostReads := rfl
@[simp] theorem State.fail_eq_raise (i : Instr) : s.fail e info i = s.raise e info (encode i) := rfl
end raise

section resetCsrs
variable (s : State)
@[simp] theorem State.resetCsrs_cfg : s.resetCsrs.cfg = Staged.reset := rfl
@[simp] theorem State.resetCsrs_act : s.resetCsrs.act = Active.reset := rfl
@[simp] theorem State.resetCsrs_created : s.resetCsrs.created = false := rfl
@[simp] theorem State.resetCsrs_errs : s.resetCsrs.errs = ErrRegs.reset := rfl
@[simp] theorem State.resetCsrs_sync : s.resetCsrs.sync = { Sync.initial with hist := s.sync.hist } := rfl
@[simp] theorem State.resetCsrs_outLen : s.resetCsrs.outLen = 0 := rfl
@[simp] theorem State.resetCsrs_coefMem : s.resetCsrs.coefMem = s.coefMem := rfl
@[simp] theorem State.resetCsrs_inMem : s.resetCsrs.inMem = s.inMem := rfl
@[simp] theorem State.resetCsrs_outMem : s.resetCsrs.outMem = s.outMem := rfl
@[simp] theorem State.resetCsrs_pending : s.resetCsrs.pending = s.pending := rfl
@[simp] theorem State.resetCsrs_responses : s.resetCsrs.responses = s.responses := rfl
@[simp] theorem State.resetCsrs_hostReads : s.resetCsrs.hostReads = s.hostReads := rfl
end resetCsrs

section install
variable (s : State)
@[simp] theorem State.install_cfg : s.install.cfg = s.cfg := rfl
@[simp] theorem State.install_act : s.install.act = s.cfg.activate := rfl
@[simp] theorem State.install_created : s.install.created = true := rfl
@[simp] theorem State.install_errs : s.install.errs = s.errs := rfl
@[simp] theorem State.install_sync : s.install.sync = Sync.initial := rfl
@[simp] theorem State.install_outLen : s.install.outLen = 0 := rfl
@[simp] theorem State.install_coefMem : s.install.coefMem = s.coefMem := rfl
@[simp] theorem State.install_inMem : s.install.inMem = s.inMem := rfl
@[simp] theorem State.install_outMem : s.install.outMem = s.outMem := rfl
@[simp] theorem State.install_pending : s.install.pending = s.pending := rfl
@[simp] theorem State.install_responses : s.install.responses = s.responses := rfl
@[simp] theorem State.install_hostReads : s.install.hostReads = s.hostReads := rfl
end install

section clearCreated
variable (s : State)
@[simp] theorem State.clearCreated_cfg : s.clearCreated.cfg = s.cfg := rfl
@[simp] theorem State.clearCreated_act : s.clearCreated.act = s.act := rfl
@[simp] theorem State.clearCreated_created : s.clearCreated.created = false := rfl
@[simp] theorem State.clearCreated_errs : s.clearCreated.errs = s.errs := rfl
@[simp] theorem State.clearCreated_sync : s.clearCreated.sync = s.sync := rfl
@[simp] theorem State.clearCreated_outLen : s.clearCreated.outLen = s.outLen := rfl
@[simp] theorem State.clearCreated_coefMem : s.clearCreated.coefMem = s.coefMem := rfl
@[simp] theorem State.clearCreated_inMem : s.clearCreated.inMem = s.inMem := rfl
@[simp] theorem State.clearCreated_outMem : s.clearCreated.outMem = s.outMem := rfl
@[simp] theorem State.clearCreated_pending : s.clearCreated.pending = s.pending := rfl
@[simp] theorem State.clearCreated_responses : s.clearCreated.responses = s.responses := rfl
@[simp] theorem State.clearCreated_hostReads : s.clearCreated.hostReads = s.hostReads := rfl
end clearCreated

section writeCsr
variable (s : State) (c : Csr) (v : Half)
@[simp] theorem State.writeCsr_cfg : (s.writeCsr c v).cfg = s.cfg.write c v := rfl
@[simp] theorem State.writeCsr_act : (s.writeCsr c v).act = s.act := rfl
@[simp] theorem State.writeCsr_created : (s.writeCsr c v).created = s.created := rfl
@[simp] theorem State.writeCsr_errs : (s.writeCsr c v).errs = s.errs := rfl
@[simp] theorem State.writeCsr_sync : (s.writeCsr c v).sync = s.sync := rfl
@[simp] theorem State.writeCsr_outLen : (s.writeCsr c v).outLen = s.outLen := rfl
@[simp] theorem State.writeCsr_coefMem : (s.writeCsr c v).coefMem = s.coefMem := rfl
@[simp] theorem State.writeCsr_inMem : (s.writeCsr c v).inMem = s.inMem := rfl
@[simp] theorem State.writeCsr_outMem : (s.writeCsr c v).outMem = s.outMem := rfl
@[simp] theorem State.writeCsr_pending : (s.writeCsr c v).pending = s.pending := rfl
@[simp] theorem State.writeCsr_responses : (s.writeCsr c v).responses = s.responses := rfl
@[simp] theorem State.writeCsr_hostReads : (s.writeCsr c v).hostReads = s.hostReads := rfl
end writeCsr

section afterBlock
variable (s : State) (n : Nat)
@[simp] theorem State.afterBlock_cfg : (s.afterBlock n).cfg = s.cfg := rfl
@[simp] theorem State.afterBlock_act : (s.afterBlock n).act = s.act := rfl
@[simp] theorem State.afterBlock_created : (s.afterBlock n).created = s.created := rfl
@[simp] theorem State.afterBlock_errs : (s.afterBlock n).errs = s.errs := rfl
@[simp] theorem State.afterBlock_sync : (s.afterBlock n).sync = (blockResult s n).1 := rfl
@[simp] theorem State.afterBlock_outLen :
    (s.afterBlock n).outLen = BitVec.ofNat 16 (blockResult s n).2.length := rfl
@[simp] theorem State.afterBlock_coefMem : (s.afterBlock n).coefMem = s.coefMem := rfl
@[simp] theorem State.afterBlock_inMem : (s.afterBlock n).inMem = s.inMem := rfl
@[simp] theorem State.afterBlock_outMem : (s.afterBlock n).outMem = blockOut s (blockResult s n).2 := rfl
@[simp] theorem State.afterBlock_pending : (s.afterBlock n).pending = s.pending := rfl
@[simp] theorem State.afterBlock_responses : (s.afterBlock n).responses = s.responses := rfl
@[simp] theorem State.afterBlock_hostReads : (s.afterBlock n).hostReads = s.hostReads := rfl
end afterBlock

section offer
variable (s : State) (m : HostMove)
@[simp] theorem State.offer_pending : (s.offer m).pending = m :: s.pending := rfl
@[simp] theorem State.takeMove_offer : (s.offer m).takeMove = some (m, s) := rfl
@[simp] theorem step_offer : step (s.offer m) = s.move m := rfl
theorem step_idle (h : s.pending = []) : step s = .next s := by simp [step, State.takeMove, h]
theorem step_pending (rest : List HostMove) (h : s.pending = m :: rest) :
    step s = State.move { s with pending := rest } m := by simp [step, State.takeMove, h]
end offer

end Sys2Proof.Machine
end

