-- ==== Sys2Proof/Laws/Csr.lean ====
section
/-!
SUPPORT. The CSR file (`10_state.md` R33, R34): addresses name registers one to one, and a write of a staged
register changes that register's value alone.
-/

namespace Sys2Proof.Machine

theorem csrAt_csrAddr (c : Csr) : csrAt (csrAddr c) = some c := by cases c <;> rfl

theorem csrAddr_of_csrAt (a : BitVec 8) (c : Csr) (h : csrAt a = some c) : csrAddr c = a := by
  have := List.find?_some h
  simpa using this

theorem csrAt_eq_some_iff (a : BitVec 8) (c : Csr) : csrAt a = some c ↔ csrAddr c = a :=
  ⟨csrAddr_of_csrAt a c, fun h => h ▸ csrAt_csrAddr c⟩

theorem csrAddr_injective (c d : Csr) (h : csrAddr c = csrAddr d) : c = d := by
  have := csrAt_csrAddr c
  rw [h, csrAt_csrAddr d] at this
  exact (Option.some.inj this).symm

theorem csrAt_eq_none_iff (a : BitVec 8) : csrAt a = none ↔ ∀ c, csrAddr c ≠ a := by
  constructor
  · intro h c hc
    rw [← hc, csrAt_csrAddr] at h
    cases h
  · intro h
    cases hc : csrAt a with
    | none => rfl
    | some c => exact absurd (csrAddr_of_csrAt a c hc) (h c)

/-- A staged register reads back the 16 bits written (R33, R141). -/
theorem readCsr_writeCsr_same (s : State) (c : Csr) (v : Half) (h : csrWritable c = true) :
    (s.writeCsr c v).readCsr c = v.setWidth 32 := by
  cases c <;> first | rfl | exact absurd h (by decide)

/-- The write of a register leaves what every other register reads as. -/
theorem readCsr_writeCsr_ne (s : State) (c d : Csr) (v : Half) (h : d ≠ c) :
    (s.writeCsr c v).readCsr d = s.readCsr d := by
  cases c <;> cases d <;> first | rfl | exact absurd rfl h

/-- A response changes what no register reads as. -/
@[simp] theorem readCsr_respond (s : State) (d : Word) (c : Csr) : (s.respond d).readCsr c = s.readCsr c := by
  cases c <;> rfl

end Sys2Proof.Machine
end

