-- ==== Sys2Proof/Laws/Operands.lean ====
section
/-!
SUPPORT. The laws of the integer functions and of packed values (`00_scope.md` R11, R12): bounds of the
clamps, what a stored component reads back as, `pack` and `unpack` as inverses.
-/

namespace Sys2Proof.Machine

theorem clamp_ge (v lo hi : Int) (h : lo ≤ hi) : lo ≤ clamp v lo hi := by
  unfold clamp; split
  · exact le_refl _
  · split <;> omega

theorem clamp_le (v lo hi : Int) (h : lo ≤ hi) : clamp v lo hi ≤ hi := by
  unfold clamp; split
  · exact h
  · split <;> omega

theorem clamp_of_mem (v lo hi : Int) (h1 : lo ≤ v) (h2 : v ≤ hi) : clamp v lo hi = v := by
  unfold clamp
  rw [if_neg (by omega), if_neg (by omega)]

/-- A clamp between ordered limits, as a maximum of a minimum. -/
theorem clamp_eq_max_min (v lo hi : Int) (h : lo ≤ hi) : clamp v lo hi = max lo (min hi v) := by
  unfold clamp; split <;> [skip; split] <;> omega

theorem sat16_ge (v : Int) : -32768 ≤ sat16 v := clamp_ge _ _ _ (by omega)

theorem sat16_le (v : Int) : sat16 v ≤ 32767 := clamp_le _ _ _ (by omega)

theorem sat32_ge (v : Int) : -2147483648 ≤ sat32 v := clamp_ge _ _ _ (by omega)

theorem sat32_le (v : Int) : sat32 v ≤ 2147483647 := clamp_le _ _ _ (by omega)

theorem sext16_ge (h : Half) : -32768 ≤ sext16 h := by
  have := BitVec.le_toInt h; simpa [sext16] using this

theorem sext16_le (h : Half) : sext16 h ≤ 32767 := by
  have := BitVec.toInt_lt (x := h); simp [sext16] at *; omega

theorem sext32_ge (w : Word) : -2147483648 ≤ sext32 w := by
  have := BitVec.le_toInt w; simpa [sext32] using this

theorem sext32_le (w : Word) : sext32 w ≤ 2147483647 := by
  have := BitVec.toInt_lt (x := w); simp [sext32] at *; omega

theorem zext_nonneg {n : Nat} (w : BitVec n) : 0 ≤ zext w := Int.natCast_nonneg _

/-- A stored component reads back as the integer stored, when it fits. -/
theorem sext16_half16 (v : Int) (h1 : -32768 ≤ v) (h2 : v ≤ 32767) : sext16 (half16 v) = v := by
  rw [sext16, half16, BitVec.toInt_ofInt]
  exact Int.bmod_eq_of_le (by omega) (by omega)

@[simp] theorem sext16_half16_sat16 (v : Int) : sext16 (half16 (sat16 v)) = sat16 v :=
  sext16_half16 _ (sat16_ge v) (sat16_le v)

/-- A signed register reads back as the integer stored, when it fits. -/
theorem sext32_word32 (v : Int) (h1 : -2147483648 ≤ v) (h2 : v ≤ 2147483647) : sext32 (word32 v) = v := by
  rw [sext32, word32, BitVec.toInt_ofInt]
  exact Int.bmod_eq_of_le (by omega) (by omega)

@[simp] theorem sext32_word32_sat32 (v : Int) : sext32 (word32 (sat32 v)) = sat32 v :=
  sext32_word32 _ (sat32_ge v) (sat32_le v)

/-- An unsigned register reads back as the integer stored, modulo 2^32. -/
theorem zext_word32 (v : Int) : zext (word32 v) = v % 2 ^ 32 := by
  have h : 0 ≤ v % 2 ^ 32 := Int.emod_nonneg _ (by norm_num)
  simp only [zext, word32, BitVec.toNat_ofInt]
  norm_num at h ⊢
  exact h

theorem zext_word32_of_mem (v : Int) (h1 : 0 ≤ v) (h2 : v < 2 ^ 32) : zext (word32 v) = v := by
  rw [zext_word32, Int.emod_eq_of_lt h1 h2]

@[simp] theorem satCplx_re (a b : Int) : sext16 (satCplx a b).re = sat16 a := sext16_half16_sat16 a

@[simp] theorem satCplx_im (a b : Int) : sext16 (satCplx a b).im = sat16 b := sext16_half16_sat16 b

@[simp] theorem sext16_zero : sext16 0 = 0 := rfl

@[simp] theorem half16_zero : half16 0 = 0 := rfl

/-- A component is determined by the integer it stands for. -/
theorem half16_sext16 (h : Half) : half16 (sext16 h) = h := by simp [half16, sext16]

theorem unpack_pack (c : Cplx) : unpack (pack c) = c := by
  obtain ⟨re, im⟩ := c
  simp only [unpack, pack, Cplx.mk.injEq]
  constructor <;> ext i hi <;> simp [BitVec.getElem_extractLsb'] <;> grind

theorem pack_unpack (w : Word) : pack (unpack w) = w := by
  simp only [unpack, pack]
  ext i hi
  simp
  grind

theorem pack_injective (a b : Cplx) (h : pack a = pack b) : a = b := by
  rw [← unpack_pack a, ← unpack_pack b, h]

end Sys2Proof.Machine
end

