-- ==== Sys2Proof/Laws/Datapath.lean ====
section
/-!
SUPPORT. What each function of EXEC's datapath can do, said once: the fields it may write, the ranges of what
it writes, and the block loop over a list of samples cut in two.
-/

namespace Sys2Proof.Machine

/-! ## Step 1 -/

@[simp] theorem agc_snd (st : Sync) (x : Cplx) : (agc st x).2 = agcOutput st.gain x := rfl

@[simp] theorem agc_fst (st : Sync) (x : Cplx) :
    (agc st x).1 = { st with gain := agcGain st.gain (agcOutput st.gain x) } := rfl

/-- The new gain as an integer: the clamp leaves it in the register's range (R174). -/
theorem agcGain_toNat (g : BitVec 24) (y : Cplx) :
    zext (agcGain g y) =
      clamp (zext g + asr (zext g * (2 ^ 26 - agcPower y)) 34) 0x000100 0xFFFFFF := by
  have h1 := clamp_ge (zext g + asr (zext g * (2 ^ 26 - agcPower y)) 34) 0x000100 0xFFFFFF (by omega)
  have h2 := clamp_le (zext g + asr (zext g * (2 ^ 26 - agcPower y)) 34) 0x000100 0xFFFFFF (by omega)
  have h : agcGain g y =
      BitVec.ofInt 24 (clamp (zext g + asr (zext g * (2 ^ 26 - agcPower y)) 34) 0x000100 0xFFFFFF) := rfl
  rw [h]
  generalize clamp _ _ _ = v at h1 h2 ⊢
  simp only [zext, BitVec.toNat_ofInt]
  omega

/-! ## Steps 4 and 5 -/

/-- CARRIER writes `THETA`, `FREQ` and `SYMCNT` alone, and emits the symbol derotated by the old phase. -/
theorem carrier_spec (a : Active) (st : Sync) (y : Cplx) :
    carrier a st y =
      ({ st with
          symcnt := st.symcnt + 1
          freq := pllFreq a.bw st.freq (phaseDet a.mod (carrierSymbol st y))
          theta := pllTheta a.bw st.theta (pllFreq a.bw st.freq (phaseDet a.mod (carrierSymbol st y)))
            (phaseDet a.mod (carrierSymbol st y)) },
        carrierSymbol st y) := rfl

/-! ## Step 3 -/

/-- An on-time strobe (R206). -/
theorem strobe_onTime (a : Active) (st : Sync) (y : Cplx) (h : st.half = false) :
    strobe a st y = ((onTime a st y).1, [carrierSymbol st y]) := by
  simp only [strobe, h]
  rfl

/-- A mid strobe (R207). -/
theorem strobe_mid (a : Active) (st : Sync) (y : Cplx) (h : st.half = true) :
    strobe a st y = (mid a st y, []) := by
  simp only [strobe, h]
  rfl

@[simp] theorem onTime_fst (a : Active) (st : Sync) (y : Cplx) :
    (onTime a st y).1 = { (carrier a { st with yon := y } y).1 with half := true } := rfl

@[simp] theorem mid_eq (a : Active) (st : Sync) (y : Cplx) :
    mid a st y = { st with
      tint := loopInt a st.tint (timingError st y)
      tv := loopOut a (loopInt a st.tint (timingError st y)) (timingError st y)
      ymid := y, half := false } := rfl

theorem vMax_nonneg (a : Active) : 0 ≤ a.vMax :=
  Int.ediv_nonneg (zext_nonneg _) (by positivity)

theorem vMax_lt (a : Active) : a.vMax < 2 ^ 27 := by
  have := a.stepNom.isLt
  simp only [Active.vMax, asr, zext, Config.vShift]
  omega

theorem loopInt_toInt (a : Active) (tint : Word) (e : Int) :
    sext32 (loopInt a tint e) =
      clamp (sext32 tint + asr (a.k2 * zext a.bw * zext a.bw * e) 37) (-a.vMax) a.vMax := by
  have h0 := vMax_nonneg a
  have h1 := vMax_lt a
  have h2 := clamp_ge (sext32 tint + asr (a.k2 * zext a.bw * zext a.bw * e) 37) (-a.vMax) a.vMax (by omega)
  have h3 := clamp_le (sext32 tint + asr (a.k2 * zext a.bw * zext a.bw * e) 37) (-a.vMax) a.vMax (by omega)
  exact sext32_word32 _ (by omega) (by omega)

theorem loopOut_toInt (a : Active) (tint : Word) (e : Int) :
    sext32 (loopOut a tint e) = clamp (asr (a.k2 * zext a.bw * e) 19 + sext32 tint) (-a.vMax) a.vMax := by
  have h0 := vMax_nonneg a
  have h1 := vMax_lt a
  have h2 := clamp_ge (asr (a.k2 * zext a.bw * e) 19 + sext32 tint) (-a.vMax) a.vMax (by omega)
  have h3 := clamp_le (asr (a.k2 * zext a.bw * e) 19 + sext32 tint) (-a.vMax) a.vMax (by omega)
  exact sext32_word32 _ (by omega) (by omega)

/-- The loop filter's outputs are within `VMAX` (R209). -/
theorem loopInt_range (a : Active) (tint : Word) (e : Int) :
    -a.vMax ≤ sext32 (loopInt a tint e) ∧ sext32 (loopInt a tint e) ≤ a.vMax := by
  have := vMax_nonneg a
  rw [loopInt_toInt]
  exact ⟨clamp_ge _ _ _ (by omega), clamp_le _ _ _ (by omega)⟩

theorem loopOut_range (a : Active) (tint : Word) (e : Int) :
    -a.vMax ≤ sext32 (loopOut a tint e) ∧ sext32 (loopOut a tint e) ≤ a.vMax := by
  have := vMax_nonneg a
  rw [loopOut_toInt]
  exact ⟨clamp_ge _ _ _ (by omega), clamp_le _ _ _ (by omega)⟩

/-- A strobe emits one symbol when `HALF` is 0 and none when it is 1. -/
theorem strobe_length (a : Active) (st : Sync) (y : Cplx) :
    (strobe a st y).2.length = if st.half then 0 else 1 := by
  cases h : st.half
  · rw [strobe_onTime _ _ _ h]; rfl
  · rw [strobe_mid _ _ _ h]; rfl

/-- For an instance `VMAX` is `K2 << 18`, and `K2` is at most 255 (R209). -/
theorem Active.Legal.vMax_eq {a : Active} (h : a.Legal) : a.vMax = a.k2 * 2 ^ 18 ∧ a.k2 ≤ 255 := by
  obtain ⟨-, h2, -, -, -, -, -, -, -, h10, h11, h12⟩ := h
  constructor
  · simp only [Active.vMax, asr, zext, Config.vShift, h12]; push_cast; omega
  · have : a.k2 ≤ a.k.toNat := Nat.div_le_self _ _
    have : a.k.toNat ≤ a.k.toNat * a.m.toNat := Nat.le_mul_of_pos_right _ h2
    rw [h10, Nat.mul_assoc] at h11
    omega

/-- What a strobe leaves alone: the gain, `DPH`, HIST, the window and `TAU`; and `HALF` is toggled. -/
theorem strobe_frame (a : Active) (st : Sync) (y : Cplx) :
    (strobe a st y).1.gain = st.gain ∧ (strobe a st y).1.dph = st.dph ∧ (strobe a st y).1.hist = st.hist ∧
    (strobe a st y).1.w0 = st.w0 ∧ (strobe a st y).1.w1 = st.w1 ∧ (strobe a st y).1.w2 = st.w2 ∧
    (strobe a st y).1.w3 = st.w3 ∧ (strobe a st y).1.tau = st.tau ∧
    (strobe a st y).1.half = !st.half := by
  cases h : st.half
  · rw [strobe_onTime a st y h]; simp [carrier_spec]
  · rw [strobe_mid a st y h]; simp

@[simp] theorem strobePass_snd (a : Active) (st : Sync) :
    (strobePass a st).2 = (strobe a st (farrow st (muOf st.tau))).2 := rfl

@[simp] theorem strobePass_fst (a : Active) (st : Sync) :
    (strobePass a st).1 =
      { (strobe a st (farrow st (muOf st.tau))).1 with
        tau := word32 (zext (strobe a st (farrow st (muOf st.tau))).1.tau + zext a.stepNom +
          sext32 (strobe a st (farrow st (muOf st.tau))).1.tv) } := rfl

theorem strobeLoop_succ_of_lt (a : Active) (n : Nat) (st : Sync) (h : st.tau.toNat < Config.oneT) :
    strobeLoop a (n + 1) st =
      ((strobeLoop a n (strobePass a st).1).1, (strobePass a st).2 ++ (strobeLoop a n (strobePass a st).1).2) := by
  rw [strobeLoop, if_pos h]

theorem strobeLoop_of_ge (a : Active) (n : Nat) (st : Sync) (h : Config.oneT ≤ st.tau.toNat) :
    strobeLoop a n st = (st, []) := by
  cases n with
  | zero => rfl
  | succ n => rw [strobeLoop, if_neg (by omega)]

/-- What the strobe loop leaves alone. -/
theorem strobeLoop_frame (a : Active) (n : Nat) (st : Sync) :
    (strobeLoop a n st).1.gain = st.gain ∧ (strobeLoop a n st).1.dph = st.dph ∧
    (strobeLoop a n st).1.hist = st.hist ∧ (strobeLoop a n st).1.w0 = st.w0 ∧
    (strobeLoop a n st).1.w1 = st.w1 ∧ (strobeLoop a n st).1.w2 = st.w2 ∧ (strobeLoop a n st).1.w3 = st.w3 := by
  induction n generalizing st with
  | zero => simp [strobeLoop]
  | succ n ih =>
    by_cases h : st.tau.toNat < Config.oneT
    · obtain ⟨h1, h2, h3, h4, h5, h6, h7, -⟩ := strobe_frame a st (farrow st (muOf st.tau))
      have := ih (strobePass a st).1
      rw [strobeLoop_succ_of_lt a n st h]
      simp_all
    · simp [strobeLoop_of_ge a (n + 1) st (by omega)]

@[simp] theorem timing_snd (a : Active) (st : Sync) (z : Cplx) :
    (timing a st z).2 = (strobeLoop a 2 (shiftWindow st z)).2 := rfl

@[simp] theorem timing_fst (a : Active) (st : Sync) (z : Cplx) :
    (timing a st z).1 =
      { (strobeLoop a 2 (shiftWindow st z)).1 with
        tau := word32 (zext (strobeLoop a 2 (shiftWindow st z)).1.tau - Config.oneT) } := rfl

/-! ## Step 2 -/

theorem shiftHist_length (l : Nat) (hist : List Cplx) (y : Cplx) (h1 : 1 ≤ l) (h2 : l ≤ hist.length) :
    (shiftHist l hist y).length = hist.length := by
  simp [shiftHist]; omega

/-- With `DPH` not 0 no MF output is computed (R193). -/
theorem matchedFilter_skip (a : Active) (coef : Memory) (st : Sync) (y : Cplx) (h : st.dph ≠ 0) :
    matchedFilter a coef st y =
      ({ st with hist := shiftHist a.ntaps.toNat st.hist y, dph := nextDph a st.dph }, []) := by
  simp only [matchedFilter]
  rw [if_neg h]

/-- With `DPH` = 0 the filter output goes to the timing stage (R191). -/
theorem matchedFilter_output (a : Active) (coef : Memory) (st : Sync) (y : Cplx) (h : st.dph = 0) :
    matchedFilter a coef st y =
      (let st1 := { st with hist := shiftHist a.ntaps.toNat st.hist y }
       let z := fir coef a.ntaps.toNat st1.hist
       ({ (timing a st1 z).1 with dph := nextDph a (timing a st1 z).1.dph }, (timing a st1 z).2)) := by
  simp only [matchedFilter]
  rw [if_pos h]

/-- `DPH` and the gain after MF, whether or not an MF output is computed. -/
theorem matchedFilter_frame (a : Active) (coef : Memory) (st : Sync) (y : Cplx) :
    (matchedFilter a coef st y).1.dph = nextDph a st.dph ∧ (matchedFilter a coef st y).1.gain = st.gain := by
  by_cases h : st.dph = 0
  · rw [matchedFilter_output _ _ _ _ h]
    simp only [timing_fst, (strobeLoop_frame a 2 _).1, (strobeLoop_frame a 2 _).2.1]
    exact ⟨rfl, rfl⟩
  · rw [matchedFilter_skip _ _ _ _ h]
    exact ⟨rfl, rfl⟩

theorem runSample_dph (a : Active) (coef : Memory) (st : Sync) (x : Cplx) :
    (runSample a coef st x).1.dph = nextDph a st.dph := (matchedFilter_frame a coef (agc st x).1 (agc st x).2).1

theorem runSample_gain (a : Active) (coef : Memory) (st : Sync) (x : Cplx) :
    (runSample a coef st x).1.gain = agcGain st.gain (agcOutput st.gain x) :=
  (matchedFilter_frame a coef (agc st x).1 (agc st x).2).2

/-! ## The block loop -/

@[simp] theorem runBlock_nil (a : Active) (coef : Memory) (st : Sync) : runBlock a coef st [] = (st, []) := rfl

theorem runBlock_cons (a : Active) (coef : Memory) (st : Sync) (x : Cplx) (xs : List Cplx) :
    runBlock a coef st (x :: xs) =
      ((runBlock a coef (runSample a coef st x).1 xs).1,
        (runSample a coef st x).2 ++ (runBlock a coef (runSample a coef st x).1 xs).2) := rfl

/-- An induction over a block, packaged once: a property every sample keeps holds after the block. -/
theorem runBlock_invariant (a : Active) (coef : Memory) (P : Sync → Prop)
    (h : ∀ st x, P st → P (runSample a coef st x).1) (st : Sync) (xs : List Cplx) (h0 : P st) :
    P (runBlock a coef st xs).1 := by
  induction xs generalizing st with
  | nil => exact h0
  | cons x xs ih => exact ih _ (h st x h0)

/-- The block loop is a left fold: a block cut in two is the two blocks one after the other. -/
theorem runBlock_append (a : Active) (coef : Memory) (st : Sync) (xs ys : List Cplx) :
    runBlock a coef st (xs ++ ys) =
      ((runBlock a coef (runBlock a coef st xs).1 ys).1,
        (runBlock a coef st xs).2 ++ (runBlock a coef (runBlock a coef st xs).1 ys).2) := by
  induction xs generalizing st with
  | nil => rfl
  | cons x xs ih => simp [runBlock_cons, ih]

theorem blockSamples_length (s : State) (n : Nat) : (blockSamples s n).length = n := by simp [blockSamples]

end Sys2Proof.Machine
end

