-- ==== Sys2Proof/Laws/Memory.lean ====
section
/-!
SUPPORT. The laws of the memories (`20_memory.md` R83 to R88): a read after a write to the same place gives
the value written, a write leaves every other place alone, and every memory operation keeps the canonical
form.
-/

namespace Sys2Proof.Machine

/-! ## Bytes -/

/-- Every address listed in `l` is above `a`. -/
def cellsAbove (a : Nat) (l : List Host.Cell) : Prop := ∀ c ∈ l, a < c.1

theorem risingCells_cons (a : Nat) (x : Byte) (t : List Host.Cell) :
    risingCells ((a, x) :: t) = true ↔ cellsAbove a t ∧ risingCells t = true := by
  induction t generalizing a x with
  | nil => simp [risingCells, cellsAbove]
  | cons c t ih =>
    obtain ⟨b, y⟩ := c
    rw [show risingCells ((a, x) :: (b, y) :: t) = (decide (a < b) && risingCells ((b, y) :: t)) from rfl,
      Bool.and_eq_true, decide_eq_true_iff]
    constructor
    · rintro ⟨hab, h⟩
      refine ⟨?_, h⟩
      intro c hc
      rcases List.mem_cons.mp hc with rfl | hc
      · exact hab
      · exact lt_trans hab (((ih b y).mp h).1 c hc)
    · rintro ⟨h, h'⟩
      exact ⟨h (b, y) (by simp), h'⟩

theorem cellAt_eq_none_of_above (l : List Host.Cell) (a b : Nat) (h : cellsAbove b l) (hab : a ≤ b) :
    cellAt l a = none := by
  induction l with
  | nil => rfl
  | cons c t ih =>
    obtain ⟨d, y⟩ := c
    have hd : b < d := h (d, y) (by simp)
    rw [cellAt, if_neg (by omega)]
    exact ih fun c hc => h c (by simp [hc])

theorem mem_setCell (p : Nat) (l : List Host.Cell) (a : Nat) (v : Byte) (c : Host.Cell)
    (h : c ∈ setCell p l a v) : c ∈ l ∨ (c = (a, v) ∧ v ≠ Memory.blank p a) := by
  induction l with
  | nil => unfold setCell at h; split at h <;> simp_all
  | cons d t ih =>
    obtain ⟨b, x⟩ := d
    unfold setCell at h
    split at h
    · split at h <;> (simp_all; try tauto)
    · split at h
      · split at h <;> (simp_all; try tauto)
      · rcases List.mem_cons.mp h with rfl | h
        · simp
        · rcases ih h with h | h
          · simp [h]
          · exact .inr h

theorem setCell_rising (p : Nat) (l : List Host.Cell) (a : Nat) (v : Byte) (h : risingCells l = true) :
    risingCells (setCell p l a v) = true := by
  induction l with
  | nil => unfold setCell; split <;> rfl
  | cons d t ih =>
    obtain ⟨b, x⟩ := d
    have ⟨h1, h2⟩ := (risingCells_cons b x t).mp h
    unfold setCell
    split
    · split
      · exact h
      · refine (risingCells_cons a v _).mpr ⟨fun c hc => ?_, h⟩
        rcases List.mem_cons.mp hc with rfl | hc
        · assumption
        · exact lt_trans ‹a < b› (h1 c hc)
    · split
      · subst a
        split
        · exact h2
        · exact (risingCells_cons b v t).mpr ⟨h1, h2⟩
      · refine (risingCells_cons b x _).mpr ⟨fun c hc => ?_, ih h2⟩
        rcases mem_setCell p t a v c hc with hc | ⟨rfl, -⟩
        · exact h1 c hc
        · show b < a; omega

theorem cellAt_setCell_ne (p : Nat) (l : List Host.Cell) (a b : Nat) (v : Byte) (h : b ≠ a) :
    cellAt (setCell p l a v) b = cellAt l b := by
  induction l with
  | nil => unfold setCell; split <;> simp [cellAt, h]
  | cons d t ih =>
    obtain ⟨c, x⟩ := d
    unfold setCell
    split
    · split <;> simp [cellAt, h]
    · split
      · subst c
        split <;> simp [cellAt, h]
      · simp only [cellAt, ih]

theorem cellAt_setCell_same (p : Nat) (l : List Host.Cell) (a : Nat) (v : Byte) (h : risingCells l = true) :
    (cellAt (setCell p l a v) a).getD (Memory.blank p a) = v := by
  induction l with
  | nil => unfold setCell; split <;> simp_all [cellAt]
  | cons d t ih =>
    obtain ⟨b, x⟩ := d
    have ⟨h1, h2⟩ := (risingCells_cons b x t).mp h
    unfold setCell
    split
    · rename_i hab
      split
      · rw [cellAt, if_neg (by omega), cellAt_eq_none_of_above t a b h1 (by omega)]
        simp_all
      · simp [cellAt]
    · split
      · subst a
        split
        · rw [cellAt_eq_none_of_above t b b h1 (le_refl _)]
          simp_all
        · simp [cellAt]
      · rw [cellAt, if_neg ‹_›]
        exact ih h2

/-- The canonical form says what it should of the listed bytes. -/
theorem Memory.wf_iff (size : Nat) (m : Memory) :
    m.wf size = true ↔
      risingCells m.cells = true ∧ ∀ c ∈ m.cells, c.1 < size ∧ c.2 ≠ Memory.blank m.powerOn c.1 := by
  simp [Memory.wf, List.all_eq_true]

theorem Memory.wf_rising {size : Nat} {m : Memory} (h : m.wf size = true) : risingCells m.cells = true :=
  ((Memory.wf_iff size m).mp h).1

@[simp] theorem Memory.writeByte_powerOn (m : Memory) (a : Nat) (v : Byte) :
    (m.writeByte a v).powerOn = m.powerOn := rfl

theorem Memory.writeByte_rising (m : Memory) (a : Nat) (v : Byte) (h : risingCells m.cells = true) :
    risingCells (m.writeByte a v).cells = true := setCell_rising _ _ _ _ h

theorem Memory.readByte_writeByte_same (m : Memory) (a : Nat) (v : Byte) (h : risingCells m.cells = true) :
    (m.writeByte a v).readByte a = v := cellAt_setCell_same m.powerOn m.cells a v h

theorem Memory.readByte_writeByte_ne (m : Memory) (a b : Nat) (v : Byte) (h : b ≠ a) :
    (m.writeByte a v).readByte b = m.readByte b := by
  simp only [Memory.readByte, Memory.writeByte, cellAt_setCell_ne m.powerOn m.cells a b v h]

/-- A byte write keeps the canonical form. -/
theorem Memory.writeByte_wf {size : Nat} {m : Memory} {a : Nat} (v : Byte) (h : m.wf size = true)
    (ha : a < size) : (m.writeByte a v).wf size = true := by
  obtain ⟨h1, h2⟩ := (Memory.wf_iff size m).mp h
  refine (Memory.wf_iff size _).mpr ⟨setCell_rising _ _ _ _ h1, fun c hc => ?_⟩
  rcases mem_setCell _ _ _ _ _ hc with hc | ⟨rfl, hv⟩
  · exact h2 c hc
  · exact ⟨ha, hv⟩

/-! ## Words -/

theorem Memory.writeHalf_wf {size : Nat} {m : Memory} {a : Nat} (v : Half) (h : m.wf size = true)
    (ha : 2 * a + 1 < size) : (m.writeHalf a v).wf size = true :=
  Memory.writeByte_wf _ (Memory.writeByte_wf _ h (by omega)) ha

theorem Memory.writeWord_wf {size : Nat} {m : Memory} {a : Nat} (v : Word) (h : m.wf size = true)
    (ha : 4 * a + 3 < size) : (m.writeWord a v).wf size = true :=
  Memory.writeByte_wf _ (Memory.writeByte_wf _ (Memory.writeByte_wf _ (Memory.writeByte_wf _ h (by omega))
    (by omega)) (by omega)) ha

theorem Memory.writeWord_rising (m : Memory) (a : Nat) (v : Word) (h : risingCells m.cells = true) :
    risingCells (m.writeWord a v).cells = true :=
  Memory.writeByte_rising _ _ _ (Memory.writeByte_rising _ _ _ (Memory.writeByte_rising _ _ _
    (Memory.writeByte_rising _ _ _ h)))

/-- A word write leaves every byte outside the word as it was. -/
theorem Memory.readByte_writeWord_ne (m : Memory) (a b : Nat) (v : Word) (h : b < 4 * a ∨ 4 * a + 3 < b) :
    (m.writeWord a v).readByte b = m.readByte b := by
  simp only [Memory.writeWord]
  rw [readByte_writeByte_ne _ _ _ _ (by omega), readByte_writeByte_ne _ _ _ _ (by omega),
    readByte_writeByte_ne _ _ _ _ (by omega), readByte_writeByte_ne _ _ _ _ (by omega)]

theorem Memory.readByte_writeHalf_ne (m : Memory) (a b : Nat) (v : Half) (h : b < 2 * a ∨ 2 * a + 1 < b) :
    (m.writeHalf a v).readByte b = m.readByte b := by
  simp only [Memory.writeHalf]
  rw [readByte_writeByte_ne _ _ _ _ (by omega), readByte_writeByte_ne _ _ _ _ (by omega)]

/-- A word reads back as it was written. -/
theorem Memory.readWord_writeWord_same (m : Memory) (a : Nat) (v : Word) (h : risingCells m.cells = true) :
    (m.writeWord a v).readWord a = v := by
  have e (m : Memory) (h : risingCells m.cells = true) (x y : Nat) (v : Byte) :
      (m.writeByte x v).readByte y = if y = x then v else m.readByte y := by
    split
    · subst y; exact readByte_writeByte_same m x v h
    · exact readByte_writeByte_ne m x y v ‹_›
  have h1 := writeByte_rising m (4 * a) (v.extractLsb' 0 8) h
  have h2 := writeByte_rising _ (4 * a + 1) (v.extractLsb' 8 8) h1
  have h3 := writeByte_rising _ (4 * a + 2) (v.extractLsb' 16 8) h2
  simp only [Memory.readWord, Memory.writeWord, e _ h3, e _ h2, e _ h1, e _ h]
  simp
  ext i hi
  grind

/-- A 16-bit word reads back as it was written. -/
theorem Memory.readHalf_writeHalf_same (m : Memory) (a : Nat) (v : Half) (h : risingCells m.cells = true) :
    (m.writeHalf a v).readHalf a = v := by
  have h1 := writeByte_rising m (2 * a) (v.extractLsb' 0 8) h
  simp only [Memory.readHalf, Memory.writeHalf]
  rw [readByte_writeByte_same _ _ _ h1, readByte_writeByte_ne _ _ _ _ (by omega),
    readByte_writeByte_same _ _ _ h]
  ext i hi
  simp
  grind

theorem Memory.readWord_writeWord_ne (m : Memory) (a b : Nat) (v : Word) (h : b ≠ a) :
    (m.writeWord a v).readWord b = m.readWord b := by
  simp only [Memory.readWord]
  rw [readByte_writeWord_ne _ _ _ _ (by omega), readByte_writeWord_ne _ _ _ _ (by omega),
    readByte_writeWord_ne _ _ _ _ (by omega), readByte_writeWord_ne _ _ _ _ (by omega)]

theorem Memory.readHalf_writeHalf_ne (m : Memory) (a b : Nat) (v : Half) (h : b ≠ a) :
    (m.writeHalf a v).readHalf b = m.readHalf b := by
  simp only [Memory.readHalf]
  rw [readByte_writeHalf_ne _ _ _ _ (by omega), readByte_writeHalf_ne _ _ _ _ (by omega)]

/-! ## The symbols of a block -/

theorem storeSymbols_append (m : Memory) (base : Half) (n : Nat) (l r : List Cplx) :
    storeSymbols m base n (l ++ r) = storeSymbols (storeSymbols m base n l) base (n + l.length) r := by
  induction l generalizing m n with
  | nil => rfl
  | cons c t ih => simp [storeSymbols, ih]; congr 1; omega

/-- Storing symbols keeps the canonical form. -/
theorem storeSymbols_wf {m : Memory} (base : Half) (n : Nat) (l : List Cplx) (h : m.wf sampleBytes = true) :
    (storeSymbols m base n l).wf sampleBytes = true := by
  induction l generalizing m n with
  | nil => exact h
  | cons c t ih => exact ih _ (Memory.writeWord_wf _ h (by simp only [sampleBytes]; omega))

/-- Storing symbols leaves every byte outside their words as it was. -/
theorem storeSymbols_readByte_ne (m : Memory) (base : Half) (n : Nat) (l : List Cplx) (b : Nat)
    (h : ∀ j < l.length, b / 4 ≠ (base.toNat + (n + j)) % 65536) :
    (storeSymbols m base n l).readByte b = m.readByte b := by
  induction l generalizing m n with
  | nil => rfl
  | cons c t ih =>
    rw [storeSymbols, ih]
    · refine Memory.readByte_writeWord_ne _ _ _ _ ?_
      have := h 0 (by simp)
      simp only [Nat.add_zero] at this
      omega
    · intro j hj
      have := h (j + 1) (by simp; omega)
      rwa [show n + 1 + j = n + (j + 1) by omega]

/-- Storing symbols leaves every word outside theirs as it was. -/
theorem storeSymbols_readWord_ne (m : Memory) (base : Half) (n : Nat) (l : List Cplx) (b : Nat)
    (h : ∀ j < l.length, b ≠ (base.toNat + (n + j)) % 65536) :
    (storeSymbols m base n l).readWord b = m.readWord b := by
  simp only [Memory.readWord]
  rw [storeSymbols_readByte_ne _ _ _ _ _ fun j hj => ?_, storeSymbols_readByte_ne _ _ _ _ _ fun j hj => ?_,
    storeSymbols_readByte_ne _ _ _ _ _ fun j hj => ?_, storeSymbols_readByte_ne _ _ _ _ _ fun j hj => ?_] <;>
    have := h j hj <;> omega

/-- Each symbol stands in its word, when there are no more than OUT has words. -/
theorem storeSymbols_readWord (m : Memory) (base : Half) (n : Nat) (l : List Cplx) (j : Nat) (r : Cplx)
    (hm : risingCells m.cells = true) (hl : l.length ≤ 65536) (h : l[j]? = some r) :
    (storeSymbols m base n l).readWord ((base.toNat + (n + j)) % 65536) = pack r := by
  induction l generalizing m n j with
  | nil => simp at h
  | cons c t ih =>
    simp only [List.length_cons] at hl
    cases j with
    | zero =>
      obtain rfl : c = r := by simpa using h
      rw [storeSymbols, storeSymbols_readWord_ne _ _ _ _ _ fun i hi => by omega, Nat.add_zero,
        Memory.readWord_writeWord_same _ _ _ hm]
    | succ j =>
      rw [storeSymbols, show n + (j + 1) = n + 1 + j by omega]
      exact ih _ _ _ (Memory.writeWord_rising _ _ _ hm) (by omega) (by simpa using h)

end Sys2Proof.Machine
end

