-- ==== Sys2Proof/Laws/PerInstr.lean ====
section
/-!
SUPPORT. A statement about every command as syntax, one lemma per constructor of `Instr`: the fields of a
command are legal (`30_encoding.md` R112, R115) and its mnemonic is the one its opcode names (R114).
-/

namespace Sys2Proof.Laws.FieldsLegal

/-- The command is well formed, and its opcode bits name its mnemonic. -/
def Statement (i : Instr) : Prop := i.WellFormed ∧ Opcode.ofBits i.fields.op = some i.opcode

theorem nop : Statement .nop := ⟨by decide, by decide⟩

theorem wrcsr (a : BitVec 8) (imm : Half) : Statement (.wrcsr a imm) :=
  ⟨by simp [Instr.WellFormed, Instr.fields, Fields.illegal, Opcode.ofBits, Opcode.bits, Opcode.format,
    Format.usesA, Format.usesImm], by rfl⟩

theorem rdcsr (a : BitVec 8) : Statement (.rdcsr a) :=
  ⟨by simp [Instr.WellFormed, Instr.fields, Fields.illegal, Opcode.ofBits, Opcode.bits, Opcode.format,
    Format.usesA], by rfl⟩

theorem create : Statement .create := ⟨by decide, by decide⟩

theorem setbw (imm : Half) : Statement (.setbw imm) :=
  ⟨by simp [Instr.WellFormed, Instr.fields, Fields.illegal, Opcode.ofBits, Opcode.bits, Opcode.format,
    Format.usesImm], by rfl⟩

theorem exec (imm : Half) : Statement (.exec imm) :=
  ⟨by simp [Instr.WellFormed, Instr.fields, Fields.illegal, Opcode.ofBits, Opcode.bits, Opcode.format,
    Format.usesImm], by rfl⟩

theorem destroy : Statement .destroy := ⟨by decide, by decide⟩

theorem reset : Statement .reset := ⟨by decide, by decide⟩

end Sys2Proof.Laws.FieldsLegal
end

