-- ==== Sys2Proof/Tests/Slice0.lean ====
section
/-!
SUPPORT. The model's tests: words written out from the encoding, the refusals of each well-formedness check,
the vectors of `95_test_vectors.md` for every command and datapath function, and for every statement with
hypotheses a state and operands that meet them. The memories are given concrete contents at power-on, so that
a test evaluates.
-/

namespace Sys2Proof.Tests

open Sys2Proof.Machine

set_option Elab.async false

/-! ## Decoding: words written out from R111 and R114 (`95_test_vectors.md` 2.1, 2.2) -/

/-- A word from its fields as bits: `op`, `rsv`, `a`, `imm`. -/
def bitsWord (op rsv : BitVec 4) (a : BitVec 8) (imm : BitVec 16) : Nat :=
  op.toNat * 2 ^ 28 + rsv.toNat * 2 ^ 24 + a.toNat * 2 ^ 16 + imm.toNat

theorem test_decode_nop : decodeTableWord 32 (bitsWord 0b0000 0 0 0) = some .nop := by decide

theorem test_decode_wrcsr :
    decodeTableWord 32 (bitsWord 0b0001 0b0000 0b00001001 0b0001000001001001) = some (.wrcsr 0x09 4169) ∧
    encode (.wrcsr 0x09 4169) = 0x10091049 := by decide

theorem test_decode_rdcsr :
    decodeTableWord 32 (bitsWord 0b0010 0b0000 0b00111010 0) = some (.rdcsr 0x3A) ∧
    encode (.rdcsr 0x3A) = 0x203A0000 := by decide

theorem test_decode_create : decodeTableWord 32 (bitsWord 0b0011 0 0 0) = some .create := by decide

theorem test_decode_setbw :
    decodeTableWord 32 (bitsWord 0b0100 0b0000 0 0b0000010100011111) = some (.setbw 1311) ∧
    encode (.setbw 1311) = 0x4000051F := by decide

theorem test_decode_exec :
    decodeTableWord 32 (bitsWord 0b0101 0b0000 0 0b0001111110001000) = some (.exec 8072) ∧
    encode (.exec 8072) = 0x50001F88 := by decide

theorem test_decode_destroy : decodeTableWord 32 (bitsWord 0b0110 0 0 0) = some .destroy := by decide

theorem test_decode_reset : decodeTableWord 32 (bitsWord 0b0111 0 0 0) = some .reset := by decide

/-- R115: each test refuses, in its order, whatever the fields after it hold. -/
theorem test_decode_refuses :
    decode 0x8F00FFFF = .error .reservedOpcode ∧ decode 0xF0000000 = .error .reservedOpcode ∧
    decode 0x1F000000 = .error .mustBeZero ∧ decode 0x01000000 = .error .mustBeZero ∧
    decode 0x00010000 = .error .mustBeZero ∧ decode 0x00000001 = .error .mustBeZero ∧
    decode 0x20200001 = .error .mustBeZero ∧ decode 0x40010000 = .error .mustBeZero ∧
    decode 0x50010008 = .error .mustBeZero ∧ decode 0x30000001 = .error .mustBeZero ∧
    decode 0x60010000 = .error .mustBeZero ∧ decode 0x70000001 = .error .mustBeZero := by decide

/-! ## Well-formedness: an ill-formed term for each check -/

theorem test_fields_reservedOpcode : (⟨8, 0, 0, 0⟩ : Fields).illegal = some .reservedOpcode := by decide

theorem test_fields_rsv : (⟨1, 1, 0, 0⟩ : Fields).illegal = some .mustBeZero := by decide

theorem test_fields_formatZ :
    (⟨3, 0, 1, 0⟩ : Fields).illegal = some .mustBeZero ∧ (⟨3, 0, 0, 1⟩ : Fields).illegal = some .mustBeZero := by
  decide

theorem test_fields_formatI :
    (⟨5, 0, 1, 8⟩ : Fields).illegal = some .mustBeZero ∧ (⟨5, 0, 0, 8⟩ : Fields).illegal = none := by decide

theorem test_fields_formatA :
    (⟨2, 0, 0x20, 1⟩ : Fields).illegal = some .mustBeZero ∧ (⟨2, 0, 0x20, 0⟩ : Fields).illegal = none := by decide

theorem test_fields_formatAI : (⟨1, 0, 0xFF, 0xFFFF⟩ : Fields).illegal = none := by decide

theorem test_asm_immRange :
    (AsmCmd.setbw 65536).wellFormed = false ∧ (AsmCmd.exec 65536).wellFormed = false ∧
    (AsmCmd.wrcsr (.name .outCap) 65536).wellFormed = false ∧ (AsmCmd.exec 65535).wellFormed = true := by decide

theorem test_asm_csrRange :
    (AsmCmd.rdcsr (.addr 256)).wellFormed = false ∧ (AsmCmd.wrcsr (.addr 256) 0).wellFormed = false ∧
    (AsmCmd.rdcsr (.addr 255)).wellFormed = true := by decide

theorem test_asm_wordRange :
    (AsmCmd.word 4294967296).wellFormed = false ∧ (AsmCmd.word 4294967295).wellFormed = true := by decide

theorem test_asm_pseudoRange :
    (AsmCmd.config 2 7 8192 0 2 1 65536).wellFormed = false ∧ (AsmCmd.buffers 0 65536 7).wellFormed = false ∧
    (AsmCmd.run 0 0 7 65536).wellFormed = false := by decide

/-! ## The assembler (2.1, R120) -/

theorem test_asm_lines :
    assembleLine "wrcsr OUT_CAP, 4169   # 4169" = some [0x10091049] ∧
    assembleLine "WRCSR 0xFF, 1" = some [0x10FF0001] ∧ assembleLine "rdcsr W3" = some [0x20430000] ∧
    assembleLine ".word 0x80000000" = some [0x80000000] ∧ assembleLine "exec 65536" = none ∧
    assembleLine "rdcsr out_cap" = none := by decide +kernel

/-- What the model takes for a blank where R119 is silent (log 16): a carriage return and a tab. -/
theorem test_asm_blanks :
    assembleLine "nop\r" = some [0x00000000] ∧ assembleLine "exec\t8 \r" = some [0x50000008] := by decide +kernel

theorem test_asm_pseudo :
    assembleLine "run 0, 0, 7, 8" = some [0x10070000, 0x10080000, 0x10090007, 0x50000008] ∧
    assembleLine "config 2, 7, 8192, 0, 2, 1, 1311" =
      some [0x10000002, 0x10010007, 0x10022000, 0x10030000, 0x10040002, 0x10050001, 0x1006051F] := by
  decide +kernel

/-! ## One command on a small state (2.2, 3.1 to 3.4) -/

/-- A fresh SYNC1 whose memories held 0 when power was applied. -/
def fresh : State := State.atPowerOn 0 0 0

/-- The next state of an outcome. -/
def nextOf (o : Host.Outcome State Fault Refusal) : State :=
  match o with
  | .next t => t
  | .fault _ | .refused _ => fresh

/-- The state after the step that issues a word. -/
def after (s : State) (w : Word) : State := nextOf (step (s.offer (.issue w)))

/-- What a command word answers. -/
def answer (s : State) (w : Word) : Option (Nat × Nat) :=
  (after s w).responses.getLast?.map fun r => (r.status.toNat, r.data.toNat)

/-- A SYNC1 with the reset configuration created, `OUT_CAP` = 7, and what its memories held at power-on. -/
def ready (coef inp : Nat) : State :=
  { State.atPowerOn coef inp 0 with
    cfg := { Staged.reset with outCap := 7 }
    act := Staged.reset.activate
    created := true }

theorem test_nop : after fresh 0x00000000 = { fresh with responses := [⟨0, 0⟩] } := by decide +kernel

theorem test_illegalWord :
    answer fresh 0x00000001 = some (3, 2) ∧ answer fresh 0x80000000 = some (3, 1) ∧
    (after fresh 0x80000000).errs = ⟨true, 3, 1, 0x80000000, 1⟩ := by decide +kernel

theorem test_wrcsr :
    answer fresh 0x1009FFFF = some (0, 0) ∧ (after fresh 0x1009FFFF).readCsr .outCap = 65535 ∧
    answer fresh 0x10300001 = some (3, 4) ∧ answer fresh 0x100A0000 = some (3, 3) ∧
    answer fresh 0x10FF0001 = some (3, 3) := by decide +kernel

theorem test_rdcsr :
    answer fresh 0x20060000 = some (0, 1311) ∧ answer fresh 0x20300000 = some (0, 0x10000) ∧
    answer fresh 0x20190000 = some (3, 3) ∧ answer fresh 0x203C0000 = some (3, 3) ∧
    answer fresh 0x20440000 = some (3, 3) ∧ answer fresh 0x20FF0000 = some (3, 3) := by decide +kernel

theorem test_create :
    answer fresh 0x30000000 = some (0, 0) ∧ (after fresh 0x30000000).readCsr .ntaps = 29 ∧
    (after fresh 0x30000000).readCsr .stepNom = 0x01000000 ∧ (after fresh 0x30000000).readCsr .status = 1 := by
  decide +kernel

/-- The causes of 3.2: one test failing at its boundary, and several together. -/
theorem test_create_causes :
    let g := Staged.reset
    createCause g = 0 ∧ createCause { g with k := 1 } = 17 ∧ createCause { g with m := 0 } = 2 ∧
    createCause { g with beta := 32768 } = 0 ∧ createCause { g with beta := 32769 } = 4 ∧
    createCause { g with bw := 0 } = 8 ∧ createCause { g with decim := 0 } = 16 ∧
    createCause { g with k := 6, decim := 4 } = 16 ∧ createCause { g with k := 6, decim := 3 } = 0 ∧
    createCause { g with mod := 3 } = 32 ∧ createCause { g with k := 255, m := 1 } = 0 ∧
    createCause { g with k := 256, m := 1 } = 64 ∧ createCause { g with k := 65535, m := 65535 } = 64 ∧
    createCause { g with k := 0, m := 0, beta := 0, bw := 0, decim := 0, mod := 3 } = 63 ∧
    createCause { g with k := 1, m := 256, beta := 0, bw := 0, mod := 3 } = 125 := by decide +kernel

theorem test_setbw :
    (after (ready 0 0) 0x40000CCD).act.bw = 3277 ∧ answer (ready 0 0) 0x40000000 = some (1, 8) ∧
    (after (ready 0 0) 0x40000000).act.bw = 1311 ∧ answer fresh 0x40000000 = some (4, 0) := by decide +kernel

theorem test_destroy :
    (after (ready 0 0) 0x60000000).readCsr .status = 0 ∧ (after (ready 0 0) 0x60000000).act.k = 2 ∧
    answer fresh 0x60000000 = some (4, 0) := by decide +kernel

theorem test_reset :
    answer (ready 0 0) 0x70000000 = some (0, 0) ∧ (after (ready 0 0) 0x70000000).cfg = Staged.reset ∧
    (after (ready 0 0) 0x70000000).act.k = 0 ∧ (after (ready 0 0) 0x70000000).created = false := by decide +kernel

theorem test_exec_capacity :
    answer { ready 0 0 with cfg := Staged.reset } 0x50000008 = some (2, 7) ∧ answer fresh 0x5000FFFF = some (4, 0) ∧
    answer (ready 0 0) 0x50000000 = some (0, 0) ∧ capReq 61 2 = 34 ∧ capReq 62 2 = 35 ∧ capReq 65535 255 = 268 := by
  decide +kernel

/-! ## The datapath (4.2, 5, 6.1, 7, 8) -/

/-- A complex value from two integers. -/
def cplx (re im : Int) : Cplx := ⟨BitVec.ofInt 16 re, BitVec.ofInt 16 im⟩

/-- A row of 4.2: output and gain after. -/
def agcRow (gain : BitVec 24) (re im : Int) : Cplx × BitVec 24 :=
  let p := agc { Sync.initial with gain := gain } (cplx re im)
  (p.2, p.1.gain)

theorem test_agc :
    agcRow 0x010000 0 0 = (cplx 0 0, 0x010100) ∧ agcRow 0x010000 8192 1 = (cplx 8192 1, 0x00FFFF) ∧
    agcRow 0x010000 (-32768) (-32768) = (cplx (-32768) (-32768), 0x00E100) ∧
    agcRow 0x008000 (-1) (-1) = (cplx (-1) (-1), 0x00807F) ∧
    agcRow 0x020000 20000 (-20000) = (cplx 32767 (-32768), 0x01C200) ∧
    agcRow 0x002D41 (-32768) (-32768) = (cplx (-5793) (-5793), 0x002D40) ∧
    agcRow 0xFFFF00 0 0 = (cplx 0 0, 0xFFFFFF) ∧
    agcRow 0xFFFFFF 1000 (-1000) = (cplx 32767 (-32768), 0xE1003F) := by decide +kernel

theorem test_farrow :
    farrowF 100 200 300 400 32767 = 299 ∧ farrowF 0 8192 8192 0 16384 = 10240 ∧
    farrowF 1000 3000 2000 (-1000) 24576 = 2718 ∧ farrowF 8191 (-8192) 8191 (-8192) 32109 = 7861 ∧
    farrowF 0 0 (-8192) 0 1 = -1 ∧ farrowF 0 0 0 32767 32767 = -1 ∧
    farrowF (-32768) 32767 32767 (-32768) 16384 = 32767 ∧
    farrowF 32767 (-32768) (-32768) 32767 16384 = -32768 := by decide

/-- COEF with the given taps in front and 0 after. -/
def taps (l : List Int) : Memory := ⟨l.foldr (fun t n => n * 65536 + (t % 65536).toNat) 0, []⟩

theorem test_fir :
    fir (taps [0, 0, 16384, 0, 0]) 5 [cplx 0 0, cplx 0 0, cplx 8192 (-4096)] = cplx 4096 (-2048) ∧
    fir (taps [32767]) 5 [cplx 32767 (-32768)] = cplx 32766 (-32767) ∧
    fir (taps [-32768]) 5 [cplx (-32768) 32767] = cplx 32767 (-32767) ∧
    fir (taps [1, 1]) 5 [cplx (-32768) 0, cplx (-1) 0] = cplx (-2) 0 ∧
    fir (taps [88, -124, -25]) 5 [cplx 1000 (-1000), cplx 2000 (-2000), cplx 3000 3000] = cplx (-8) 2 := by
  decide +kernel

theorem test_timingError :
    timingError { Sync.initial with yon := cplx 2006 (-1004), ymid := cplx 373 (-187) } (cplx 3529 (-1767)) = 7917256 ∧
    timingError { Sync.initial with yon := cplx (-32768) (-32768), ymid := cplx 32767 32767 }
      (cplx (-32768) (-32768)) = 4294901760 := by decide +kernel

/-- A row of 7.2: `TINT` and `TV` after. -/
def loopRow (k2 bw : Nat) (tint e : Int) : Int × Int :=
  let a : Active :=
    { Active.reset with k := k2, decim := 1, bw := bw, stepNom := BitVec.ofNat 32 (k2 * 2 ^ 23) }
  let st := loopFilter a { Sync.initial with tint := BitVec.ofInt 32 tint } e
  (st.tint.toInt, st.tv.toInt)

theorem test_loopFilter :
    loopRow 2 1311 0 (-1) = (-1, -2) ∧ loopRow 2 1311 (-1679) 5172538 = (-1550, 24318) ∧
    loopRow 3 1311 0 7917256 = (297, 59689) ∧ loopRow 2 1311 0 4294901760 = (107418, 524288) ∧
    loopRow 2 65535 (-524288) 67108864 = (524288, 524288) ∧
    loopRow 255 65535 0 4294901760 = (66846720, 66846720) := by decide +kernel

/-- A row of 7.3: `TAU` and `HALF` after one call of TIMING on an all-zero window. -/
def timingRow (k2 : Nat) (tau : Word) (half : Bool) (tv : Int) : Nat × Bool :=
  let a : Active := { Active.reset with k := k2, decim := 1, bw := 1311, stepNom := BitVec.ofNat 32 (k2 * 2 ^ 23) }
  let st := { Sync.initial with tau := tau, half := half, tint := BitVec.ofInt 32 tv, tv := BitVec.ofInt 32 tv }
  let t := (timing a st (cplx 0 0)).1
  (t.tau.toNat, t.half)

theorem test_timing :
    timingRow 2 0 false 0 = (0, true) ∧ timingRow 2 0 false (-1) = (0x00FFFFFE, false) ∧
    timingRow 2 0 true (-524288) = (0x00F00000, true) ∧ timingRow 2 0x01000000 false 0 = (0, false) ∧
    timingRow 2 0x0107FFFF true 0 = (0x0007FFFF, true) ∧ timingRow 3 0x00800000 true 0 = (0x01000000, false) ∧
    timingRow 255 0 false 0 = (0x7E800000, true) := by decide +kernel

/-- R221: the printed table is strictly increasing from 0 to 32767, and its 257 entries sum to 5356550. -/
theorem test_sinq :
    sinqTable.length = 257 ∧ sinqTable.sum = 5356550 ∧ (sinqTable.zip sinqTable.tail).all (fun p => p.1 < p.2) = true := by
  decide +kernel

/-- 8.1: both sums over the circle are 0; the least squared radius is 1073637604, at index 105. -/
theorem test_cosSin :
    ((List.range 1024).map fun i => (cosSin i).1).sum = 0 ∧ ((List.range 1024).map fun i => (cosSin i).2).sum = 0 ∧
    (List.range 1024).all (fun i =>
      1073637604 ≤ (cosSin i).1 * (cosSin i).1 + (cosSin i).2 * (cosSin i).2) = true ∧
    (cosSin 105).1 * (cosSin 105).1 + (cosSin 105).2 * (cosSin 105).2 = 1073637604 := by decide +kernel

/-- A row of 8.2: the symbol's word, `FREQ` and `THETA` after. -/
def carrierRow (re im : Int) (theta : Word) (freq : Int) (bw mod : Half) : Nat × Int × Nat :=
  let p := carrier { Active.reset with bw := bw, mod := mod }
    { Sync.initial with theta := theta, freq := BitVec.ofInt 32 freq } (cplx re im)
  ((pack p.2).toNat, p.1.freq.toInt, p.1.theta.toNat)

theorem test_carrier :
    carrierRow 8192 0 0 0 1311 2 = (0x00001FFF, -53704, 0xFF5B5357) ∧
    carrierRow 5793 5793 0x1FFFFFFF 0 1311 2 = (0x00322000, -53383, 0x1F5C4F86) ∧
    carrierRow 8192 0 0x40000000 0 1311 2 = (0xE0000000, -53711, 0x3F5B4E31) ∧
    carrierRow (-8192) (-100) 0 1000 1311 1 = (0xFF9CE000, 1655, 0x00020693) ∧
    carrierRow 32767 (-32768) 0x20000000 0 1311 1 = (0x8000FFFF, 214840, 0x2292C738) ∧
    carrierRow (-32768) (-32768) 0xA0000000 0 1311 2 = (0x00007FFF, -214834, 0x9D6D3DED) ∧
    carrierRow 6000 (-5000) 0xC0000000 (-123456) 3277 0 = (0x176F1387, -123456, 0xBFFE1DC0) ∧
    carrierRow 0 (-32768) 0x80000000 2147483647 65535 1 = (0x7FFF0000, 2147483647, 0x7FFE8000) ∧
    carrierRow 0 (-32768) 0 (-2147483648) 65535 1 = (0x80010000, -2147483648, 0x00017FFF) := by decide +kernel

/-! ## Whole blocks: one EXEC each (programs P2, P5) -/

/-- The registers 0x30 to 0x43 in the order of the map. -/
def syncCsrs (s : State) : List Nat :=
  [.agcGain, .dph, .tau, .tint, .tv, .half, .yon, .ymid, .theta, .freq, .symcnt, .outlen, .w0, .w1, .w2, .w3].map
    fun c => (s.readCsr c).toNat

/-- P2: five symbols from eight samples of an alternating signal. -/
theorem test_exec_P2 :
    let t := after (ready 32767 0x0000E000000020000000E000000020000000E000000020000000E00000002000) 0x50000008
    t.responses = [⟨0, 5⟩] ∧
    (List.range 6).map (fun j => (t.outMem.readWord j).toNat) =
      [0x00000000, 0x00001FFE, 0x00901EB3, 0x01161D7E, 0x01731D8E, 0] ∧
    syncCsrs t = [0x00010000, 0, 0x00F6591E, 0xFFFFF9E9, 0xFFFFF2F8, 1, 0x00001D98, 0x0000E263, 0xFD98A997,
      0xFFFCF623, 5, 5, 0x00001FFF, 0x0000E000, 0x00001FFF, 0x0000E000] := by decide +kernel

/-- The configuration and the input of P5: k = 4, D = 2, BPSK, a triangular pulse. -/
def p5 : State :=
  let g : Staged := { Staged.reset with k := 4, m := 1, mod := 1, decim := 2, outCap := 6 }
  { State.atPowerOn (taps [0, 2048, 4096, 6144, 8192, 6144, 4096, 2048, 0]).powerOn
      0x0400200004002000FC00E000FC00E000FC00E000FC00E000FC00E000FC00E000FC00E000FC00E00004002000040020000400200004002000
      0 with
    cfg := g
    act := g.activate
    created := true }

/-- P5: decimation by 2 and BPSK; the block ends one sample after an MF output. -/
theorem test_exec_P5 :
    let t := after p5 0x5000000D
    t.responses = [⟨0, 4⟩] ∧
    (List.range 4).map (fun j => (t.outMem.readWord j).toNat) = [0, 0, 0x027E13FE, 0xFEFAF7DA] ∧
    syncCsrs t = [0x0000FFCC, 1, 0x0002731C, 0x0000018F, 0x0001398E, 1, 0xFEFAF7DA, 0x023F11FF, 0x0012285D,
      0x0000170B, 4, 4, 0x023F11FF, 0xFEFFF800, 0xFC7FE402, 0xFC00E003] := by decide +kernel

/-- R82, R85: OUT addresses wrap, and the symbols' bytes are all a block writes. -/
theorem test_exec_wraps :
    let s := ready 32767 0x0000E000000020000000E000000020000000E000000020000000E00000002000
    let t := after { s with cfg := { s.cfg with outBase := 65533 } } 0x50000008
    t.outMem.readWord 65534 = 0x00001FFE ∧ t.outMem.readWord 0 = 0x01161D7E ∧ t.outMem.readWord 1 = 0x01731D8E ∧
    t.outMem.wf sampleBytes = true := by decide +kernel

/-! ## Witnesses: for each statement with hypotheses, a state and operands that meet them together -/

/-- A SYNC1 with an instance and another error behind it, everything else as `ready`. -/
def erred : State := { ready 0 0 with errs := ⟨true, 1, 8, 0x40000000, 1⟩ }

/-- The state `ready 0 0` after the first sample of a block: `HALF` is set. -/
def afterOne : State := nextOf (exec (.exec 1) (ready 0 0))

theorem witness_inv : (ready 0 0).Inv ∧ erred.Inv ∧ fresh.Inv ∧ afterOne.Inv := by
  refine ⟨?_, ?_, ?_, ?_⟩ <;> decide +kernel

theorem witness_DecodeOfEncodeGivesTheCommand :
    (Instr.wrcsr 0xFF 0xFFFF).WellFormed ∧ (Instr.rdcsr 0).WellFormed ∧ (Instr.exec 0xFFFF).WellFormed := by decide

theorem witness_EncodeOfDecodeGivesTheWord : decode 0x5000FFFF = .ok (.exec 0xFFFF) := by decide

/-- The last operand that fits and the first that does not, of each kind. -/
theorem witness_AssemblerGivesTheWordsOfItsTable :
    assemble (.wrcsr (.addr 255) 65535) = some [0x10FFFFFF] ∧ assemble (.wrcsr (.addr 256) 0) = none ∧
    assemble (.wrcsr (.addr 0) 65536) = none ∧ assemble (.setbw 65536) = none ∧
    assemble (.run 65535 65535 65535 65535) = some [0x1007FFFF, 0x1008FFFF, 0x1009FFFF, 0x5000FFFF] ∧
    assemble (.exec 65536) = none ∧ assemble (.rdcsr (.addr 256)) = none ∧
    assemble (.wrcsr (.name .outCap) 65535) = some [0x1009FFFF] ∧ assemble (.rdcsr (.name .w3)) = some [0x20430000] ∧
    assemble (.word 4294967295) = some [0xFFFFFFFF] ∧ assemble (.word 4294967296) = none ∧
    assemble (.config 65535 65535 65535 65535 65535 65535 65536) = none ∧
    assemble (.buffers 65536 0 0) = none ∧ assemble (.run 0 0 0 65536) = none := by decide

theorem witness_AssemblerConfigAtItsLargest :
    assemble (.config 65535 65535 65535 65535 65535 65535 65535) = some
      [0x1000FFFF, 0x1001FFFF, 0x1002FFFF, 0x1003FFFF, 0x1004FFFF, 0x1005FFFF, 0x1006FFFF] := by decide

theorem witness_StepRunsTheDecodedCommand :
    (fresh.offer (.issue 0x30000000)).pending = .issue 0x30000000 :: [] ∧ decode 0x30000000 = .ok .create := by decide

/-- Opcode 8 for the first clause, opcode 7 with `imm` = 1 for the second. -/
theorem witness_IllegalWordRaisesIllegalCommand :
    (fresh.offer (.issue 0x80000000)).pending = .issue 0x80000000 :: [] ∧ 8 ≤ (0x80000000 : Word).toNat / 2 ^ 28 ∧
    (fresh.offer (.issue 0x70000001)).pending = .issue 0x70000001 :: [] ∧ (0x70000001 : Word).toNat / 2 ^ 28 < 8 ∧
    decode 0x70000001 = .error .mustBeZero := by decide

theorem witness_EveryStepAnswersANextState : fresh.pending = [] ∧ step fresh = .next fresh := ⟨rfl, rfl⟩

/-- Both ends of IN, and reading the word written and another. -/
theorem witness_HostReadOfInGivesTheWordWritten :
    fresh.MemoriesWf ∧
    (nextOf (step { fresh with pending := [.writeIn 0xFFFF 0x12345678, .readIn 0xFFFF] })).inMem.readWord 65535 =
      0x12345678 ∧
    (nextOf (step { fresh with pending := [.writeIn 0 0x12345678, .readIn 1] })).inMem.cells =
      [(0, 0x78), (1, 0x56), (2, 0x34), (3, 0x12)] := by decide +kernel

theorem witness_HostReadOfCoefAndOutGivesTheWordWritten :
    fresh.MemoriesWf ∧
    (nextOf (step { fresh with pending := [.writeCoef 511 0xABCD, .readCoef 511] })).coefMem.cells =
      [(1022, 0xCD), (1023, 0xAB)] ∧
    (nextOf (step { fresh with pending := [.writeOut 0xFFFF 1, .readOut 0xFFFF] })).outMem.cells = [(262140, 1)] := by
  decide +kernel

/-- A block of eight of which a reset leaves the first symbols: 0, 2, or all of the five there are. -/
theorem witness_ResetDuringExecKeepsThePrefixOfItsSymbols :
    let s := ready 32767 0x0000E000000020000000E000000020000000E000000020000000E00000002000
    s.Inv ∧ s.created = true ∧ capReq 8 s.act.k.toNat ≤ s.cfg.outCap.toNat ∧
    (blockResult s 8).2[1]? = some (cplx 8190 0) ∧ (blockResult s 8).2.length = 5 ∧
    (nextOf (step (s.offer (.resetDuring 0x50000008 2)))).outMem.cells = [(4, 0xFE), (5, 0x1F)] ∧
    (nextOf (step (s.offer (.resetDuring 0x50000008 0)))).outMem.cells = [] ∧
    (nextOf (step (s.offer (.resetDuring 0x50000008 9)))).outMem.readWord 4 = 0x01731D8E := by decide +kernel

theorem witness_NopOnlyResponds : (1 : Word).toNat / 2 ^ 28 = 0 ∧ (1 : Word) ≠ 0 := by decide

/-- The three ranges of R141 at their ends, each with its response. -/
theorem witness_WrcsrWritesStagedRegistersOnly :
    ([0x00, 0x09].all fun a => answer fresh (encode (.wrcsr a 7)) = some (0, 0)) = true ∧
    ([0x10, 0x18, 0x20, 0x24, 0x30, 0x3B, 0x40, 0x43].all fun a =>
      answer fresh (encode (.wrcsr a 7)) = some (3, 4)) = true ∧
    ([0x0A, 0x0F, 0x19, 0x1F, 0x25, 0x2F, 0x3C, 0x3F, 0x44, 0xFF].all fun a =>
      answer fresh (encode (.wrcsr a 7)) = some (3, 3)) = true := by decide +kernel

theorem witness_RdcsrAnswersTheRegister :
    answer erred (encode (.rdcsr (csrAddr .errcmd))) = some (0, 0x40000000) ∧
    ([0x0A, 0x0F, 0x19, 0x1F, 0x25, 0x2F, 0x3C, 0x3F, 0x44, 0xFF].all fun a =>
      answer fresh (encode (.rdcsr a)) = some (3, 3)) = true := by decide +kernel

theorem witness_NarrowCsrsReadZeroExtended :
    (csrAddr .bw).toNat ≤ 0x16 ∧ (csrAddr .cfgK).toNat ≤ 0x16 ∧ ¬ (csrAddr .ntaps).toNat ≤ 0x16 := by decide

theorem witness_CreateReportsEveryFailingTest : createCause { Staged.reset with k := 1, bw := 0 } = 25 := by decide

/-- The reset configuration, and every bound of R145 met exactly: k = 255, m = 1, `beta` = 1.0, `bw` = 1. -/
theorem witness_CreateInstallsTheStagedConfiguration :
    ([Staged.reset, { Staged.reset with k := 255, m := 1, beta := 32768, bw := 1 },
      { Staged.reset with k := 6, beta := 1, decim := 3, mod := 0 }].all fun g =>
      2 ≤ g.k.toNat ∧ 1 ≤ g.m.toNat ∧ 1 ≤ g.beta.toNat ∧ g.beta.toNat ≤ 32768 ∧ 1 ≤ g.bw.toNat ∧
      1 ≤ g.decim.toNat ∧ g.k.toNat % g.decim.toNat = 0 ∧ 2 ≤ g.k.toNat / g.decim.toNat ∧ g.mod.toNat ≤ 2 ∧
      2 * g.k.toNat * g.m.toNat + 1 ≤ 512) = true := by decide

/-- Each clause of R149: no instance, 0, and the two ends of the values accepted. -/
theorem witness_SetbwReplacesTheBandwidthAlone :
    fresh.created = false ∧ (ready 0 0).created = true ∧ answer fresh 0x40000000 = some (4, 0) ∧
    answer (ready 0 0) 0x40000000 = some (1, 8) ∧ (after (ready 0 0) 0x40000001).act.bw = 1 ∧
    (after (ready 0 0) 0x4000FFFF).act.bw = 65535 := by decide +kernel

theorem witness_DestroyClearsCreatedAlone : (ready 0 0).created = true ∧ fresh.created = false := by decide

/-- A command of each kind answers a next state: the hypothesis `exec i s = next t` of the statements about every
command, with the response appended where they ask for it. -/
theorem witness_everyCommand :
    exec .destroy (ready 0 0) = .next ((ready 0 0).clearCreated.respond 0) ∧
    ((ready 0 0).clearCreated.respond 0).responses = (ready 0 0).responses ++ [⟨0, 0⟩] ∧
    exec .destroy fresh = .next (fresh.raise .notCreated 0 0x60000000) ∧
    (fresh.raise .notCreated 0 0x60000000).responses = fresh.responses ++ [⟨4, 0⟩] := ⟨rfl, rfl, rfl, rfl⟩

theorem witness_LifecycleFollowsTheTwoStateMachine :
    exec .create fresh = .next (fresh.install.respond 0) ∧ (fresh.install.respond 0).created = true := ⟨rfl, rfl⟩

theorem witness_NotCreatedIsRaisedByThreeCommands :
    (Instr.exec 8).opcode = .exec ∧ fresh.created = false ∧ answer fresh 0x50000008 = some (4, 0) ∧
    Instr.nop.opcode ≠ .setbw ∧ Instr.nop.opcode ≠ .exec ∧ Instr.nop.opcode ≠ .destroy := by decide +kernel

/-- A RDCSR that answers OK after an error leaves the five error registers; and `ERR` was set. -/
theorem witness_SuccessKeepsTheErrorRegisters :
    exec .nop erred = .next (erred.respond 0) ∧ erred.errs.err = true := ⟨rfl, rfl⟩

theorem witness_EachCommandWritesOnlyItsOwnState :
    exec (.setbw 5) (ready 0 0) = .next (State.respond { ready 0 0 with act := { (ready 0 0).act with bw := 5 } } 0) :=
  rfl

/-- Both sides of the capacity check at its boundary: 7 is needed for eight samples. -/
theorem witness_ExecChecksTheCapacityFirst :
    (ready 0 0).created = true ∧ capReq 8 (ready 0 0).act.k.toNat = 7 ∧ (ready 0 0).cfg.outCap.toNat = 7 ∧
    answer { ready 0 0 with cfg := { (ready 0 0).cfg with outCap := 6 } } 0x50000008 = some (2, 7) ∧
    answer (ready 0 0) 0x50000008 = some (0, 4) := by decide +kernel

theorem witness_ExecWritesTheSymbolsOfItsBlock : (ready 0 0).Inv ∧ (ready 0 0).execPasses 8 :=
  ⟨witness_inv.1, rfl, by decide⟩

theorem witness_ExecOfAnEmptyBlockChangesOnlyOutlen :
    (ready 0 0).created = true ∧
    3 ≤ ({ ready 0 0 with cfg := { Staged.reset with outCap := 3 } } : State).cfg.outCap.toNat := by decide

theorem witness_BlockEmitsFewerSymbolsThanItsBound :
    (ready 0 0).Inv ∧ (ready 0 0).created = true ∧ (blockResult (ready 0 0) 1).2.length = 1 := by decide +kernel

/-- Eight samples cut in three and five. -/
theorem witness_SplitBlocksGiveWhatOneBlockGives :
    let s := ready 32767 0x0000E000000020000000E000000020000000E000000020000000E00000002000
    let t1 := nextOf (exec (.exec 3) s)
    let t2 := nextOf (exec (.exec 5) { t1 with cfg := { t1.cfg with
      inBase := s.cfg.inBase + 3, outBase := s.cfg.outBase + t1.outLen } })
    s.Inv ∧ capReq 3 2 ≤ s.cfg.outCap.toNat ∧ capReq 5 2 ≤ s.cfg.outCap.toNat ∧ capReq 8 2 ≤ s.cfg.outCap.toNat ∧
    t1.outLen = 2 ∧ t2.outLen = 3 ∧ t2.outMem.readWord 4 = 0x01731D8E := by decide +kernel

theorem witness_StagedWritesDoNotReachTheInstance :
    (0x06 : BitVec 8).toNat ≤ 6 ∧ (ready 0 0).created = true ∧
    answer (nextOf (exec (.wrcsr 0x06 5) (ready 0 0))) 0x50000008 = some (0, 4) := by decide +kernel

theorem witness_SilenceRaisesTheGain :
    Config.gainMin ≤ ({ Sync.initial with gain := 0x000100 } : Sync).gain.toNat ∧
    (agcRow 0x000100 0 0).2 = 0x000101 ∧ (agcRow 0xFFFFFF 0 0).2 = 0xFFFFFF := by decide +kernel

theorem witness_GainNeverFallsBelowItsFloor :
    Reachable fresh ∧ Reachable { fresh with pending := [.issue 0x30000000] } ∧
    step fresh = .next fresh ∧ 10182 ≤ fresh.sync.gain.toNat :=
  ⟨.start 0 0 0 [], .start 0 0 0 [.issue 0x30000000], rfl, by decide⟩

/-- The step lemma at its boundary: a gain of exactly 10182, and the largest sample, which lowers no gain so low. -/
theorem witness_gainAtItsFloor :
    let s : State := { ready 0 0x80008000 with sync := { Sync.initial with gain := 10182 } }
    10182 ≤ s.sync.gain.toNat ∧ 10182 ≤ (after s 0x50000001).sync.gain.toNat ∧
    (after s 0x50000001).outLen = 1 := by decide +kernel

/-- The shortest delay line the statement admits, and the longest a CREATE admits; entries inside and beyond. -/
theorem witness_DelayLineShiftsByOneSample :
    1 ≤ 511 ∧ 511 ≤ (List.replicate 512 Cplx.zero).length ∧
    shiftHist 1 [cplx 1 0, cplx 2 0] (cplx 3 0) = [cplx 3 0, cplx 2 0] ∧
    shiftHist 2 [cplx 1 0, cplx 2 0, cplx 4 0] (cplx 3 0) = [cplx 3 0, cplx 1 0, cplx 4 0] := by decide +kernel

/-- 511 taps of 32767 on (32767, -32768), the widest case of 6.1. -/
theorem witness_FilterSumIsExactAndBounded :
    let coef := taps (List.replicate 511 32767)
    let hist := List.replicate 511 (cplx 32767 (-32768))
    firSum coef Cplx.re 511 hist = 548648583679 ∧ firSum coef Cplx.im 511 hist = -548665327616 ∧
    fir coef 511 hist = cplx 32767 (-32768) := by decide +kernel

/-- 6.2: D = 2 and five samples leave `DPH` = 1; D = 3, `DPH` = 2 and seven samples leave 0. -/
theorem witness_DecimatorKeepsItsPhase :
    let d2 : Active := { p5.act with decim := 2 }
    let d3 : Active := { p5.act with k := 6, decim := 3 }
    let st : Sync := { Sync.initial with dph := 2 }
    Sync.initial.dph.toNat < d2.decim.toNat ∧ st.dph.toNat < d3.decim.toNat ∧ d3.decim.toNat ≤ 255 ∧ st.dph ≠ 0 ∧
    Sync.initial.dph = 0 ∧
    (runBlock d2 p5.coefMem Sync.initial (List.replicate 5 (cplx 1 1))).1.dph = 1 ∧
    (runBlock d3 p5.coefMem st (List.replicate 7 (cplx 1 1))).1.dph = 0 := by decide +kernel

theorem witness_InterpolatorReproducesRamps :
    farrowF 5 (-32768) 7 9 0 = -32768 ∧ farrowF (-5) (-5) (-5) (-5) 12345 = -5 ∧
    farrowF 100 200 300 400 16384 = 250 := by decide

theorem witness_strobes : Sync.initial.half = false ∧ afterOne.sync.half = true := by decide +kernel

/-- A legal configuration with a state in range whose first pass, and whose second, is below `ONE_T`. -/
theorem witness_StrobePassSchedulesTheNextStrobe :
    let st : Sync := { Sync.initial with half := true, tint := BitVec.ofInt 32 (-524288), tv := BitVec.ofInt 32 (-524288) }
    (ready 0 0).act.Legal ∧ st.InRange (ready 0 0).act ∧ st.tau.toNat < Config.oneT ∧
    (strobePass (ready 0 0).act st).1.tau.toNat < Config.oneT ∧
    (timing (ready 0 0).act st (cplx 0 0)).1.tau = 0x00F00000 := by decide +kernel

/-- `TAU` = `ONE_T` on entry, the boundary of the clauses without a strobe (7.3). -/
theorem witness_TimingWithoutStrobe :
    let st : Sync := { Sync.initial with tau := 0x01000000 }
    Config.oneT ≤ st.tau.toNat ∧ st.InRange (ready 0 0).act ∧ (timing (ready 0 0).act st (cplx 1 2)).2 = [] ∧
    (timing (ready 0 0).act st (cplx 1 2)).1.tau = 0 ∧ (timing (ready 0 0).act st (cplx 1 2)).1.w3 = cplx 1 2 := by
  decide +kernel

/-- `K2` = 3 for the second clause. -/
theorem witness_StrobeLoopEndsInTwoPasses :
    let a : Active := { Staged.reset with k := 3 }.activate
    a.Legal ∧ Sync.initial.InRange a ∧ 3 ≤ a.k2 ∧ ({ Sync.initial with tau := 0x0184FFFF } : Sync).InRange a := by
  decide +kernel

theorem witness_PhaseDetectorStaysInItsRange :
    (2 : Half).toNat ≤ 2 ∧ phaseDet 2 (cplx (-32768) 0) = 32768 ∧ phaseDet 1 (cplx (-1) (-32768)) = 32768 ∧
    phaseDet 2 (cplx 0 (-32768)) = -32768 := by decide

theorem witness_OpenLoopKeepsThePhase :
    let s : State := { ready 0 0 with act := { (ready 0 0).act with mod := 0 } }
    s.act.mod = 0 ∧ s.sync.freq = 0 ∧ answer s 0x50000008 = some (0, 4) := by decide +kernel

theorem witness_FirstSymbolOfAnInstanceIsZero :
    exec .create fresh = .next (fresh.install.respond 0) ∧ createCause fresh.cfg = 0 := ⟨rfl, by decide⟩

theorem witness_SilentBlockOfEightGivesFourZeroSymbols :
    let s : State := { fresh with cfg := { Staged.reset with outCap := 7 } }
    s.cfg = { Staged.reset with outCap := 7 } ∧ ∀ i < 8, s.inMem.readWord i = 0 := by decide +kernel

/-- The invariant's hypothesis with a step that changes the state: the first sample of a block. -/
theorem witness_EveryStepKeepsTheInvariant :
    ((ready 0 0).offer (.issue 0x50000001)).Inv ∧
    (after (ready 0 0) 0x50000001).sync.half = true := by decide +kernel

end Sys2Proof.Tests
end

section
/-!
PROOFS, the words of commands. Every command's fields are legal, the word of four fields has those fields, and
so decoding the word of a command gives the command back (`30_encoding.md` R111, R114, R115).
-/

namespace Sys2Proof

/-- R111: the four fields of a word lie side by side, so each reads back from the word they make. -/
@[simp] theorem fieldsOf_word (f : Fields) : fieldsOf f.word = f := by
  obtain ⟨op, rsv, a, imm⟩ := f
  simp only [fieldsOf, Fields.word, Fields.mk.injEq]
  refine ⟨?_, ?_, ?_, ?_⟩ <;> ext i hi <;> simp <;> grind

/-- R115: a word whose fields pass the tests is the command its opcode and operand fields name. -/
theorem decode_of_legal {w : Word} {m : Opcode} (hlegal : (fieldsOf w).illegal = none)
    (hop : Opcode.ofBits (fieldsOf w).op = some m) :
    decode w = .ok (m.build (fieldsOf w).a (fieldsOf w).imm) := by
  simp only [decode, hlegal, hop]

/-- A command is its mnemonic with its operand fields. -/
theorem Instr.build_opcode (i : Instr) : i.opcode.build i.fields.a i.fields.imm = i := by
  cases i <;> rfl

/-- The laws of `Sys2Proof.Laws.FieldsLegal`, gathered for any command. -/
theorem Instr.fieldsLegal (i : Instr) : Laws.FieldsLegal.Statement i := by
  cases i with
  | nop => exact Laws.FieldsLegal.nop
  | wrcsr a imm => exact Laws.FieldsLegal.wrcsr a imm
  | rdcsr a => exact Laws.FieldsLegal.rdcsr a
  | create => exact Laws.FieldsLegal.create
  | setbw imm => exact Laws.FieldsLegal.setbw imm
  | exec imm => exact Laws.FieldsLegal.exec imm
  | destroy => exact Laws.FieldsLegal.destroy
  | reset => exact Laws.FieldsLegal.reset

@[simp] theorem fieldsOf_encode (i : Instr) : fieldsOf (encode i) = i.fields := fieldsOf_word i.fields

/-- R111, R114, R115: the word of a command decodes to the command. -/
@[simp] theorem decode_encode (i : Instr) : decode (encode i) = .ok i := by
  obtain ⟨hlegal, hop⟩ := i.fieldsLegal
  rw [← fieldsOf_encode i] at hop
  rw [decode_of_legal ((congrArg Fields.illegal (fieldsOf_encode i)).trans hlegal) hop, fieldsOf_encode,
    i.build_opcode]

end Sys2Proof
end

section
/-!
PROOFS, the command port. What issuing a word does, by what the word decodes to (`00_scope.md` R14, R97, R117).
-/

namespace Sys2Proof.Machine

theorem State.issue_of_decode {w : Word} {i : Instr} (s : State) (h : decode w = .ok i) :
    s.issue w = exec i s := by
  simp only [State.issue, h]

/-- The command port of log 5: a word given by its number is the host's issue of that word. -/
@[simp] theorem State.withFetchWord_toNat (s : State) (w : Word) :
    s.withFetchWord 32 w.toNat = s.offer (.issue w) := by
  rw [State.withFetchWord, Nat.mod_eq_of_lt w.isLt, BitVec.ofNat_toNat, BitVec.setWidth_eq]

/-- A step with an issued word is the answer to that word. -/
theorem step_issue (s : State) (w : Word) (rest : List HostMove) (h : s.pending = .issue w :: rest) :
    step s = State.issue { s with pending := rest } w := step_pending s _ rest h

/-- Settles O6: the step hands the word to `issue`, which runs what it decodes to; and the word `withFetchWord`
offers decodes to the command it encodes. -/
theorem stepRunsTheDecodedCommand : Obligations.StepRunsTheDecodedCommand := by
  constructor
  · intro s w rest i hpending hdecode
    rw [step_issue s w rest hpending, State.issue_of_decode _ hdecode]
  · intro s i
    calc step (s.withFetchWord 32 (encode i).toNat)
        = step (s.offer (.issue (encode i))) := by rw [State.withFetchWord_toNat]
      _ = s.issue (encode i) := step_offer s _
      _ = exec i s := s.issue_of_decode (decode_encode i)

end Sys2Proof.Machine
end

section
/-!
PROOFS, what the registers read as. The values after power-on, and that no register reads a bit outside those the
map of `10_state.md` R34 gives it.
-/

namespace Sys2Proof.Machine

/-- R33: a register narrower than the port reads as its own value. -/
theorem toNat_setWidth_word_lt {n : Nat} (x : BitVec n) (h : n ≤ 32) : (x.setWidth 32).toNat < 2 ^ n := by
  rw [BitVec.toNat_setWidth_of_le h]
  exact x.isLt

@[simp] theorem halfWord_toNat (half : Bool) : (halfWord half).toNat = if half then 1 else 0 := by
  cases half <;> rfl

@[simp] theorem statusWord_toNat (created err : Bool) :
    (statusWord created err).toNat = (if created then 1 else 0) + (if err then 2 else 0) := by
  cases created <;> cases err <;> rfl

/-- R34: the registers up to 0x16 are the staged ones and those CREATE and SETBW copy, all of 16 bits. -/
theorem readCsr_toNat_lt_of_addr_le (s : State) (c : Csr) (h : (csrAddr c).toNat ≤ 0x16) :
    (s.readCsr c).toNat < 2 ^ 16 := by
  cases c
  case cfgK | cfgM | cfgBeta | cfgShape | cfgMod | cfgDecim | cfgBw | inBase | outBase | outCap
     | actK | actM | actBeta | actShape | actMod | actDecim | bw =>
    exact toNat_setWidth_word_lt (n := 16) _ (by decide)
  all_goals exact absurd h (by decide)

/-- Settles O17: each narrow register is a zero-extended field, and `HALF` and `STATUS` are made of flags. -/
theorem narrowCsrsReadZeroExtended : Obligations.NarrowCsrsReadZeroExtended := by
  intro s
  exact ⟨readCsr_toNat_lt_of_addr_le s, toNat_setWidth_word_lt s.act.ntaps (by decide),
    toNat_setWidth_word_lt s.errs.code (by decide), toNat_setWidth_word_lt s.sync.gain (by decide),
    toNat_setWidth_word_lt s.sync.dph (by decide), toNat_setWidth_word_lt s.outLen (by decide),
    halfWord_toNat s.sync.half, statusWord_toNat s.created s.errs.err⟩

/-- R61, R282: no register reads a memory or the host's lists. -/
theorem readCsr_atPowerOn (coef inp out : Nat) (c : Csr) :
    (State.atPowerOn coef inp out).readCsr c = (State.atPowerOn 0 0 0).readCsr c := by
  cases c <;> rfl

/-- Settles O11: what the memories hold is read by no register, and with blank memories the map is evaluated. -/
theorem resetValueOfEveryCsr : Obligations.ResetValueOfEveryCsr := by
  intro coef inp out
  simp only [readCsr_atPowerOn coef inp out]
  decide

end Sys2Proof.Machine
end

section
/-!
PROOFS, what a command can do. Every command either ends with an error or leaves a state and responds OK; the two
relations below say when and with what, and `exec_cases` says that there is nothing else. The frames of the
commands and what they do to the error registers follow by cases (`10_state.md` R32 to R34, R46; `60_exceptions.md`
R249, R250).
-/

namespace Sys2Proof.Machine

/-- `Fails i s e info`: in the state `s` the command `i` ends with the error `e` and this info value (R249). -/
inductive Fails : Instr → State → ErrorKind → Word → Prop where
  | wrcsrUnimplemented {s a imm} (haddr : csrAt a = none) : Fails (.wrcsr a imm) s .illegalCommand 3
  | wrcsrReadOnly {s a imm} (c : Csr) (haddr : csrAt a = some c) (hro : csrWritable c = false) :
      Fails (.wrcsr a imm) s .illegalCommand 4
  | rdcsrUnimplemented {s a} (haddr : csrAt a = none) : Fails (.rdcsr a) s .illegalCommand 3
  | createRefused {s} (hcause : createCause s.cfg ≠ 0) :
      Fails .create s .configurationError (BitVec.ofNat 32 (createCause s.cfg))
  | setbwNotCreated {s imm} (hcreated : s.created = false) : Fails (.setbw imm) s .notCreated 0
  | setbwZero {s} (hcreated : s.created = true) : Fails (.setbw 0) s .configurationError 8
  | execNotCreated {s imm} (hcreated : s.created = false) : Fails (.exec imm) s .notCreated 0
  | execCapacity {s imm} (hcreated : s.created = true)
      (hcap : s.cfg.outCap.toNat < capReq imm.toNat s.act.k.toNat) :
      Fails (.exec imm) s .capacityError (BitVec.ofNat 32 (capReq imm.toNat s.act.k.toNat))
  | destroyNotCreated {s} (hcreated : s.created = false) : Fails .destroy s .notCreated 0

/-- `Succeeds i s u data`: in the state `s` the command `i` ends without error; it leaves the state `u`, and then
responds OK with `data` (R116). -/
inductive Succeeds : Instr → State → State → Word → Prop where
  | nop {s} : Succeeds .nop s s 0
  | wrcsr {s a imm} (c : Csr) (haddr : csrAt a = some c) (hrw : csrWritable c = true) :
      Succeeds (.wrcsr a imm) s (s.writeCsr c imm) 0
  | rdcsr {s a} (c : Csr) (haddr : csrAt a = some c) : Succeeds (.rdcsr a) s s (s.readCsr c)
  | create {s} (hcause : createCause s.cfg = 0) : Succeeds .create s s.install 0
  | setbw {s imm} (hcreated : s.created = true) (himm : imm ≠ 0) :
      Succeeds (.setbw imm) s { s with act := { s.act with bw := imm } } 0
  | exec {s imm} (hpasses : s.execPasses imm.toNat) :
      Succeeds (.exec imm) s (s.afterBlock imm.toNat) (BitVec.ofNat 32 (blockResult s imm.toNat).2.length)
  | destroy {s} (hcreated : s.created = true) : Succeeds .destroy s s.clearCreated 0
  | reset {s} : Succeeds .reset s s.resetCsrs 0

/-- What a command answers: in every state it fails with one error of R249, or it succeeds. -/
theorem exec_answers (i : Instr) (s : State) :
    (∃ e info, Fails i s e info ∧ exec i s = .next (s.fail e info i)) ∨
    (∃ u data, Succeeds i s u data ∧ exec i s = .next (u.respond data)) := by
  cases i with
  | nop => exact .inr ⟨_, _, .nop, rfl⟩
  | wrcsr a imm =>
    cases haddr : csrAt a with
    | none => exact .inl ⟨_, _, .wrcsrUnimplemented haddr, by simp only [exec, execWrcsr, haddr]⟩
    | some c =>
      cases hrw : csrWritable c with
      | false => exact .inl ⟨_, _, .wrcsrReadOnly c haddr hrw, by simp [exec, execWrcsr, haddr, hrw]⟩
      | true => exact .inr ⟨_, _, .wrcsr c haddr hrw, by simp [exec, execWrcsr, haddr, hrw]⟩
  | rdcsr a =>
    cases haddr : csrAt a with
    | none => exact .inl ⟨_, _, .rdcsrUnimplemented haddr, by simp only [exec, execRdcsr, haddr]⟩
    | some c => exact .inr ⟨_, _, .rdcsr c haddr, by simp only [exec, execRdcsr, haddr]⟩
  | create =>
    by_cases hcause : createCause s.cfg = 0
    · exact .inr ⟨_, _, .create hcause, if_pos hcause⟩
    · exact .inl ⟨_, _, .createRefused hcause, if_neg hcause⟩
  | setbw imm =>
    cases hcreated : s.created with
    | false => exact .inl ⟨_, _, .setbwNotCreated hcreated, if_pos hcreated⟩
    | true =>
      by_cases himm : imm = 0
      · subst himm
        exact .inl ⟨_, _, .setbwZero hcreated, by simp [exec, execSetbw, hcreated]⟩
      · exact .inr ⟨_, _, .setbw hcreated himm, by
          rw [exec, execSetbw, if_neg (by simp [hcreated]), if_neg himm]⟩
  | exec imm =>
    cases hcreated : s.created with
    | false => exact .inl ⟨_, _, .execNotCreated hcreated, if_pos hcreated⟩
    | true =>
      by_cases hcap : s.cfg.outCap.toNat < capReq imm.toNat s.act.k.toNat
      · exact .inl ⟨_, _, .execCapacity hcreated hcap, by simp [exec, execExec, immCount, hcreated, hcap]⟩
      · exact .inr ⟨_, _, .exec ⟨hcreated, Nat.le_of_not_lt hcap⟩,
          by simp [exec, execExec, immCount, hcreated, hcap]⟩
  | destroy =>
    cases hcreated : s.created with
    | false => exact .inl ⟨_, _, .destroyNotCreated hcreated, if_pos hcreated⟩
    | true => exact .inr ⟨_, _, .destroy hcreated, if_neg (by simp [hcreated])⟩
  | reset => exact .inr ⟨_, _, .reset, rfl⟩

/-- `exec_answers` as an inversion: where a next state comes from. -/
theorem exec_cases {i : Instr} {s t : State} (h : exec i s = .next t) :
    (∃ e info, Fails i s e info ∧ t = s.fail e info i) ∨ (∃ u data, Succeeds i s u data ∧ t = u.respond data) := by
  rcases exec_answers i s with ⟨e, info, hfails, hexec⟩ | ⟨u, data, hsucc, hexec⟩
  · rw [hexec] at h
    cases h
    exact .inl ⟨e, info, hfails, rfl⟩
  · rw [hexec] at h
    cases h
    exact .inr ⟨u, data, hsucc, rfl⟩

/-- R240: the codes of the errors are 1 to 4, so none is the status OK. -/
theorem ErrorKind.code_range (e : ErrorKind) : 1 ≤ e.code.toNat ∧ e.code.toNat ≤ 4 := by
  cases e <;> decide

theorem ErrorKind.code_ne_zero (e : ErrorKind) : e.code ≠ 0 := by
  cases e <;> decide

/-- R32, R46: of the commands that succeed only RESET writes the error registers. -/
theorem Succeeds.errs_eq {i : Instr} {s u : State} {data : Word} (h : Succeeds i s u data) (hi : i ≠ .reset) :
    u.errs = s.errs := by
  cases h with
  | reset => exact absurd rfl hi
  | nop | rdcsr _ _ | wrcsr _ _ _ | create _ | setbw _ _ | exec _ | destroy _ => rfl

/-- Settles O27: a command that fails answers a code that is not OK and sets `ERR`; one that succeeds writes the
error registers only if it is RESET. -/
theorem successKeepsTheErrorRegisters : Obligations.SuccessKeepsTheErrorRegisters := by
  intro i s t r hexec hi hresp
  rcases exec_cases hexec with ⟨e, info, -, rfl⟩ | ⟨u, data, hsucc, rfl⟩
  · have hr : ⟨e.code, info⟩ = r := by simpa using hresp
    refine ⟨fun hok => ?_, fun _ => rfl⟩
    subst hr
    exact absurd hok e.code_ne_zero
  · have herrs : (u.respond data).errs = s.errs := hsucc.errs_eq hi
    exact ⟨fun _ => herrs, fun herr => herrs ▸ herr⟩

/-- Settles O28: an error writes none of this state, and each success writes what its update names. -/
theorem eachCommandWritesOnlyItsOwnState : Obligations.EachCommandWritesOnlyItsOwnState := by
  intro i s t hexec
  rcases exec_cases hexec with ⟨e, info, -, rfl⟩ | ⟨u, data, hsucc, rfl⟩
  · simp
  · cases hsucc with
    | nop | rdcsr _ _ | destroy _ => simp
    | wrcsr _ _ _ | create _ | setbw _ _ | exec _ | reset => simp [Instr.opcode]

end Sys2Proof.Machine
end

section
/-!
PROOFS, the ranges of the timing loop. A strobe keeps `TINT` and `TV` within `VMAX` (`43_timing.md` R208, R209); so
a pass of the strobe loop moves `TAU` on without a wrap, two passes bring it to `ONE_T`, and a call of TIMING leaves
it in its range (R203, R211).
-/

namespace Sys2Proof.Machine

/-- The range of the loop filter's registers (R209), the part of `Sync.InRange` that a strobe can write. -/
abbrev Sync.LoopInRange (a : Active) (st : Sync) : Prop :=
  -a.vMax ≤ sext32 st.tint ∧ sext32 st.tint ≤ a.vMax ∧ -a.vMax ≤ sext32 st.tv ∧ sext32 st.tv ≤ a.vMax

theorem Sync.inRange_iff (a : Active) (st : Sync) :
    st.InRange a ↔
      st.dph.toNat < a.decim.toNat ∧ zext st.tau < zext a.stepNom + a.vMax ∧ st.LoopInRange a := Iff.rfl

/-- R200, R209: the nominal step is `K2 << 23`, its largest correction `K2 << 18`, with `K2` from 2 to 255. -/
theorem Active.Legal.step_eq {a : Active} (h : a.Legal) :
    zext a.stepNom = a.k2 * 2 ^ 23 ∧ a.vMax = a.k2 * 2 ^ 18 ∧ 2 ≤ a.k2 ∧ a.k2 ≤ 255 := by
  obtain ⟨hvMax, hk2⟩ := h.vMax_eq
  obtain ⟨-, -, -, -, -, -, -, hk2', -, -, -, hstep⟩ := h
  exact ⟨by simp [zext, hstep], hvMax, hk2', hk2⟩

/-- An on-time strobe leaves `TINT` and `TV`, a mid strobe sets both by clamps (R206 to R209). -/
theorem strobe_loopInRange {a : Active} {st : Sync} (y : Cplx) (h : st.LoopInRange a) :
    (strobe a st y).1.LoopInRange a := by
  cases hhalf : st.half with
  | false => rwa [strobe_onTime a st y hhalf]
  | true =>
    obtain ⟨hint, hint'⟩ := loopInt_range a st.tint (timingError st y)
    obtain ⟨hout, hout'⟩ := loopOut_range a (loopInt a st.tint (timingError st y)) (timingError st y)
    rw [strobe_mid a st y hhalf]
    exact ⟨hint, hint', hout, hout'⟩

theorem strobePass_loopInRange {a : Active} {st : Sync} (h : st.LoopInRange a) :
    (strobePass a st).1.LoopInRange a := strobe_loopInRange _ h

/-- A pass from below `ONE_T` schedules the next strobe without a wrap, by a step within `VMAX` of the nominal
one (R203). -/
theorem strobePass_tau_range {a : Active} {st : Sync} (ha : a.Legal) (h : st.LoopInRange a)
    (htau : st.tau.toNat < Config.oneT) :
    zext st.tau + (zext a.stepNom - a.vMax) ≤ zext (strobePass a st).1.tau ∧
    zext (strobePass a st).1.tau ≤ zext st.tau + zext a.stepNom + a.vMax := by
  obtain ⟨hstep, hvMax, hk2, hk2'⟩ := ha.step_eq
  obtain ⟨-, -, -, -, -, -, -, htau', -⟩ := strobe_frame a st (farrow st (muOf st.tau))
  obtain ⟨-, -, htv, htv'⟩ := strobe_loopInRange (farrow st (muOf st.tau)) h
  have hpos := zext_nonneg st.tau
  have hlt : zext st.tau < 2 ^ 24 := Int.ofNat_lt.mpr htau
  rw [strobePass_fst, htau']
  dsimp only
  rw [zext_word32_of_mem _ (by omega) (by omega)]
  omega

theorem strobeLoop_loopInRange {a : Active} (n : Nat) {st : Sync} (h : st.LoopInRange a) :
    (strobeLoop a n st).1.LoopInRange a := by
  induction n generalizing st with
  | zero => exact h
  | succ n ih =>
    by_cases htau : st.tau.toNat < Config.oneT
    · rw [strobeLoop_succ_of_lt a n st htau]
      exact ih (strobePass_loopInRange h)
    · rwa [strobeLoop_of_ge a (n + 1) st (Nat.le_of_not_lt htau)]

/-- The last pass starts below `ONE_T`, so the loop ends less than one largest step beyond it (R211). -/
theorem strobeLoop_tau_lt {a : Active} (n : Nat) {st : Sync} (ha : a.Legal) (h : st.LoopInRange a)
    (htau : zext st.tau < Config.oneT + zext a.stepNom + a.vMax) :
    zext (strobeLoop a n st).1.tau < Config.oneT + zext a.stepNom + a.vMax := by
  induction n generalizing st with
  | zero => exact htau
  | succ n ih =>
    by_cases hlt : st.tau.toNat < Config.oneT
    · obtain ⟨-, hpass⟩ := strobePass_tau_range ha h hlt
      have hlt' : zext st.tau < Config.oneT := Int.ofNat_lt.mpr hlt
      rw [strobeLoop_succ_of_lt a n st hlt]
      exact ih (strobePass_loopInRange h) (by omega)
    · rwa [strobeLoop_of_ge a (n + 1) st (Nat.le_of_not_lt hlt)]

/-- `n` passes bring `TAU` to `ONE_T` when `n` smallest steps from it do (R203). -/
theorem le_strobeLoop_tau {a : Active} (n : Nat) {st : Sync} (ha : a.Legal) (h : st.LoopInRange a)
    (htau : Config.oneT ≤ zext st.tau + n * (zext a.stepNom - a.vMax)) :
    Config.oneT ≤ (strobeLoop a n st).1.tau.toNat := by
  induction n generalizing st with
  | zero => simpa [strobeLoop, zext] using htau
  | succ n ih =>
    by_cases hlt : st.tau.toNat < Config.oneT
    · obtain ⟨hpass, -⟩ := strobePass_tau_range ha h hlt
      rw [strobeLoop_succ_of_lt a n st hlt]
      refine ih (strobePass_loopInRange h) ?_
      push_cast at htau ⊢
      linarith
    · rw [strobeLoop_of_ge a (n + 1) st (Nat.le_of_not_lt hlt)]
      exact Nat.le_of_not_lt hlt

/-- R203, R211: two smallest steps are at least `ONE_T`, so two passes end the loop. -/
theorem le_strobeLoop_two_tau {a : Active} {st : Sync} (ha : a.Legal) (h : st.LoopInRange a) :
    Config.oneT ≤ (strobeLoop a 2 st).1.tau.toNat := by
  obtain ⟨hstep, hvMax, hk2, -⟩ := ha.step_eq
  have hpos := zext_nonneg st.tau
  exact le_strobeLoop_tau 2 ha h (by push_cast; omega)

/-- R209, R211: TIMING keeps the ranges; the loop leaves `TAU` at `ONE_T` or above, so taking `ONE_T` off it does
not wrap. -/
theorem timing_inRange {a : Active} {st : Sync} (z : Cplx) (ha : a.Legal) (h : st.InRange a) :
    (timing a st z).1.InRange a := by
  obtain ⟨hdph, htau, hloop⟩ := (Sync.inRange_iff a st).mp h
  have hwindow : (shiftWindow st z).LoopInRange a := hloop
  have hwtau : zext (shiftWindow st z).tau < Config.oneT + zext a.stepNom + a.vMax := by
    change zext st.tau < _
    push_cast
    omega
  have hge := le_strobeLoop_two_tau ha hwindow
  have hlt := strobeLoop_tau_lt 2 ha hwindow hwtau
  obtain ⟨-, hdph', -⟩ := strobeLoop_frame a 2 (shiftWindow st z)
  have hword := (strobeLoop a 2 (shiftWindow st z)).1.tau.isLt
  rw [timing_fst, Sync.inRange_iff]
  refine ⟨hdph' ▸ hdph, ?_, strobeLoop_loopInRange 2 hwindow⟩
  dsimp only
  rw [zext_word32_of_mem _ (by simp only [zext]; omega) (by simp only [zext]; omega)]
  omega

theorem timing_frame (a : Active) (st : Sync) (z : Cplx) :
    (timing a st z).1.gain = st.gain ∧ (timing a st z).1.dph = st.dph ∧ (timing a st z).1.hist = st.hist := by
  obtain ⟨hgain, hdph, hhist, -⟩ := strobeLoop_frame a 2 (shiftWindow st z)
  exact ⟨hgain, hdph, hhist⟩

end Sys2Proof.Machine
end

section
/-!
PROOFS, the ranges over a block. Every sample of a block keeps the ranges of a created SYNC1, the floor of the gain
and the length of HIST (`10_state.md` R47 to R51, R57), so a block does.
-/

namespace Sys2Proof.Machine

/-- What the invariant says of the synchronizer state while `CREATED` is 1. -/
abbrev Sync.Sound (a : Active) (st : Sync) : Prop :=
  st.InRange a ∧ Config.gainMin ≤ st.gain.toNat ∧ st.hist.length = Config.ntapsMax

/-- R193: the decimator's phase stays below `D`. -/
theorem nextDph_lt {a : Active} (dph : BitVec 8) (ha : a.Legal) : (nextDph a dph).toNat < a.decim.toNat := by
  obtain ⟨-, -, -, -, -, hdecim, -⟩ := ha
  rw [nextDph, BitVec.toNat_ofNat]
  exact (Nat.mod_le _ _).trans_lt (Nat.mod_lt _ hdecim)

/-- R174: the clamp of the AGC keeps the gain at its floor or above. -/
theorem gainMin_le_agcGain (gain : BitVec 24) (y : Cplx) : Config.gainMin ≤ (agcGain gain y).toNat := by
  have hclamp := clamp_ge (zext gain + asr (zext gain * (2 ^ 26 - agcPower y)) 34) 0x000100 0xFFFFFF (by omega)
  rw [← agcGain_toNat gain y] at hclamp
  exact Int.ofNat_le.mp hclamp

theorem gainMin_le_initial_gain : Config.gainMin ≤ Sync.initial.gain.toNat := by decide

theorem timing_sound {a : Active} {st : Sync} (z : Cplx) (ha : a.Legal) (h : st.Sound a) :
    (timing a st z).1.Sound a := by
  obtain ⟨hrange, hgain, hhist⟩ := h
  obtain ⟨hgain', -, hhist'⟩ := timing_frame a st z
  exact ⟨timing_inRange z ha hrange, hgain'.symm ▸ hgain, hhist'.symm ▸ hhist⟩

theorem nextDph_sound {a : Active} {st : Sync} (ha : a.Legal) (h : st.Sound a) :
    Sync.Sound a { st with dph := nextDph a st.dph } := by
  obtain ⟨⟨-, hrange⟩, hrest⟩ := h
  exact ⟨⟨nextDph_lt st.dph ha, hrange⟩, hrest⟩

/-- R191: HIST keeps its length under the shift, because `NTAPS` is from 1 to 511. -/
theorem shiftHist_sound {a : Active} {st : Sync} (y : Cplx) (ha : a.Legal) (h : st.Sound a) :
    Sync.Sound a { st with hist := shiftHist a.ntaps.toNat st.hist y } := by
  obtain ⟨hrange, hgain, hhist⟩ := h
  obtain ⟨-, -, -, -, -, -, -, -, -, hntaps, hntaps', -⟩ := ha
  have hle : a.ntaps.toNat ≤ Config.ntapsMax := hntaps'.trans (by decide)
  exact ⟨hrange, hgain, (shiftHist_length _ _ y (by omega) (hhist.symm ▸ hle)).trans hhist⟩

theorem matchedFilter_sound {a : Active} (coef : Memory) {st : Sync} (y : Cplx) (ha : a.Legal) (h : st.Sound a) :
    (matchedFilter a coef st y).1.Sound a := by
  have hshift := shiftHist_sound y ha h
  by_cases hdph : st.dph = 0
  · rw [matchedFilter_output a coef st y hdph]
    exact nextDph_sound ha (timing_sound _ ha hshift)
  · rw [matchedFilter_skip a coef st y hdph]
    exact nextDph_sound ha hshift

theorem runSample_sound {a : Active} (coef : Memory) {st : Sync} (x : Cplx) (ha : a.Legal) (h : st.Sound a) :
    (runSample a coef st x).1.Sound a := by
  obtain ⟨hrange, -, hhist⟩ := h
  exact matchedFilter_sound coef _ ha ⟨hrange, gainMin_le_agcGain _ _, hhist⟩

theorem runBlock_sound {a : Active} (coef : Memory) {st : Sync} (xs : List Cplx) (ha : a.Legal) (h : st.Sound a) :
    (runBlock a coef st xs).1.Sound a :=
  runBlock_invariant a coef (·.Sound a) (fun _ x hst => runSample_sound coef x ha hst) st xs h

end Sys2Proof.Machine
end

section
/-!
PROOFS, what CREATE installs. The seven tests of `40_control.md` R145, and that a staged configuration which passes
them gives a legal active one (R146).
-/

namespace Sys2Proof.Machine

theorem causeBit_eq_zero_iff {b : Bool} {value : Nat} (h : value ≠ 0) : causeBit b value = 0 ↔ b = false := by
  cases b <;> simp [causeBit, h]

/-- R145: `cause` is 0 exactly when all seven tests pass. -/
theorem createCause_eq_zero_iff (g : Staged) :
    createCause g = 0 ↔
      2 ≤ g.k.toNat ∧ 1 ≤ g.m.toNat ∧ (g.beta.toNat ≠ 0 ∧ g.beta.toNat ≤ 32768) ∧ g.bw.toNat ≠ 0 ∧
      (g.decim.toNat ≠ 0 ∧ g.k.toNat % g.decim.toNat = 0 ∧ 2 ≤ g.k.toNat / g.decim.toNat) ∧ g.mod.toNat ≤ 2 ∧
      2 * g.k.toNat * g.m.toNat + 1 ≤ Config.ntapsMax := by
  simp only [createCause, Nat.add_eq_zero_iff, causeBit_eq_zero_iff, one_ne_zero, OfNat.ofNat_ne_zero, ne_eq,
    not_false_eq_true, decide_not, Bool.or_eq_false_iff, Bool.not_eq_false', decide_eq_true_eq,
    decide_eq_false_iff_not, not_lt, and_assoc]

/-- R44, R45, R146: the configuration CREATE installs is legal. `NTAPS` is odd, so 512 bounds it by 511, and the two
derived registers hold their values whole. -/
theorem activate_legal {g : Staged} (h : createCause g = 0) : g.activate.Legal := by
  obtain ⟨hk, hm, ⟨hbeta, hbeta'⟩, hbw, ⟨hdecim, hmod, hk2⟩, hscheme, htaps⟩ := (createCause_eq_zero_iff g).mp h
  have hmul : g.k.toNat ≤ g.k.toNat * g.m.toNat := Nat.le_mul_of_pos_right _ hm
  have hdiv : g.k.toNat / g.decim.toNat ≤ g.k.toNat := Nat.div_le_self _ _
  rw [Nat.mul_assoc, Config.ntapsMax] at htaps
  have hntaps : g.activate.ntaps.toNat = 2 * g.k.toNat * g.m.toNat + 1 := by
    simp only [Staged.activate, BitVec.toNat_ofNat, Nat.mul_assoc]
    omega
  have hstep : g.activate.stepNom.toNat = g.activate.k2 * 2 ^ 23 := by
    simp only [Staged.activate, Active.k2, BitVec.toNat_ofNat]
    omega
  refine ⟨hk, hm, Nat.pos_of_ne_zero hbeta, hbeta', Nat.pos_of_ne_zero hbw, Nat.pos_of_ne_zero hdecim, hmod, hk2,
    hscheme, hntaps, ?_, hstep⟩
  rw [hntaps, Nat.mul_assoc]
  omega

/-- R146, R209, R211: the initial synchronizer state is in the ranges of every legal configuration. -/
theorem initial_sound {a : Active} (ha : a.Legal) : Sync.initial.Sound a := by
  obtain ⟨hstep, hvMax, hk2, -⟩ := ha.step_eq
  obtain ⟨-, -, -, -, -, hdecim, -⟩ := ha
  have htau : zext Sync.initial.tau = 0 := rfl
  have htint : sext32 Sync.initial.tint = 0 := rfl
  have htv : sext32 Sync.initial.tv = 0 := rfl
  refine ⟨⟨hdecim, ?_, ?_⟩, gainMin_le_initial_gain, List.length_replicate⟩ <;> omega

end Sys2Proof.Machine
end

section
/-!
PROOFS, the invariant. Every update of the state that a command or a move of the host makes keeps `State.Inv`, and
so every step does (`10_state.md` R45 to R51; `43_timing.md` R209, R211).
-/

namespace Sys2Proof.Machine

theorem memoriesWf_of_inv {s : State} (h : s.Inv) : s.MemoriesWf := by
  obtain ⟨-, -, -, -, hmem⟩ := h
  exact hmem

/-- What the invariant says beyond the memories does not depend on them. -/
theorem withMemories_inv {s : State} {coef inp out : Memory} (h : s.Inv) (hcoef : coef.wf coefBytes = true)
    (hin : inp.wf sampleBytes = true) (hout : out.wf sampleBytes = true) :
    State.Inv { s with coefMem := coef, inMem := inp, outMem := out } := by
  obtain ⟨hinst, hgain, hhist, herrs, -⟩ := h
  exact ⟨hinst, hgain, hhist, herrs, hcoef, hin, hout⟩

/-- R46: an error leaves the error registers sound. -/
theorem raise_inv {s : State} (e : ErrorKind) (info w : Word) (h : s.Inv) : (s.raise e info w).Inv := by
  obtain ⟨hinst, hgain, hhist, -, hmem⟩ := h
  exact ⟨hinst, hgain, hhist, ⟨nofun, fun _ => e.code_range⟩, hmem⟩

theorem install_inv {s : State} (hcause : createCause s.cfg = 0) (h : s.Inv) : s.install.Inv := by
  obtain ⟨-, -, -, herrs, hmem⟩ := h
  have hlegal : s.cfg.activate.Legal := activate_legal hcause
  obtain ⟨hrange, hgain, hhist⟩ := initial_sound hlegal
  exact ⟨fun _ => ⟨hlegal, hrange⟩, hgain, hhist, herrs, hmem⟩

/-- R149: a bandwidth other than 0 keeps the configuration legal, and no range depends on it. -/
theorem setBandwidth_inv {s : State} {imm : Half} (himm : imm ≠ 0) (h : s.Inv) :
    State.Inv { s with act := { s.act with bw := imm } } := by
  obtain ⟨hinst, hrest⟩ := h
  refine ⟨fun hcreated => ?_, hrest⟩
  obtain ⟨⟨hk, hm, hbeta, hbeta', -, hlegal⟩, hrange⟩ := hinst hcreated
  have hbw : 1 ≤ imm.toNat := Nat.pos_of_ne_zero fun hz => himm (BitVec.eq_of_toNat_eq hz)
  exact ⟨⟨hk, hm, hbeta, hbeta', hbw, hlegal⟩, hrange⟩

theorem afterBlock_inv {s : State} {n : Nat} (hcreated : s.created = true) (h : s.Inv) : (s.afterBlock n).Inv := by
  obtain ⟨hinst, hgain, hhist, herrs, hcoef, hin, hout⟩ := h
  obtain ⟨hlegal, hrange⟩ := hinst hcreated
  obtain ⟨hrange', hgain', hhist'⟩ :=
    runBlock_sound s.coefMem (blockSamples s n) hlegal ⟨hrange, hgain, hhist⟩
  exact ⟨fun _ => ⟨hlegal, hrange'⟩, hgain', hhist', herrs, hcoef, hin, storeSymbols_wf _ _ _ hout⟩

theorem clearCreated_inv {s : State} (h : s.Inv) : s.clearCreated.Inv := by
  obtain ⟨-, hrest⟩ := h
  exact ⟨nofun, hrest⟩

/-- R61, R281: after a reset `CREATED` is 0, the gain is 1.0, and HIST is as it was. -/
theorem resetCsrs_inv {s : State} (h : s.Inv) : s.resetCsrs.Inv := by
  obtain ⟨-, -, hhist, -, hmem⟩ := h
  exact ⟨nofun, gainMin_le_initial_gain, hhist, ⟨fun _ => rfl, nofun⟩, hmem⟩

theorem Succeeds.inv {i : Instr} {s u : State} {data : Word} (hsucc : Succeeds i s u data) (h : s.Inv) : u.Inv := by
  cases hsucc with
  | nop | rdcsr _ _ | wrcsr _ _ _ => exact h
  | create hcause => exact install_inv hcause h
  | setbw _ himm => exact setBandwidth_inv himm h
  | exec hpasses => exact afterBlock_inv hpasses.1 h
  | destroy _ => exact clearCreated_inv h
  | reset => exact resetCsrs_inv h

/-- Every command keeps the invariant. -/
theorem exec_inv {i : Instr} {s t : State} (hexec : exec i s = .next t) (h : s.Inv) : t.Inv := by
  rcases exec_cases hexec with ⟨e, info, -, rfl⟩ | ⟨u, data, hsucc, rfl⟩
  · exact raise_inv e info (encode i) h
  · exact hsucc.inv h

/-- Every command word, legal or not, keeps the invariant. -/
theorem issue_inv {s t : State} {w : Word} (hissue : s.issue w = .next t) (h : s.Inv) : t.Inv := by
  unfold State.issue at hissue
  split at hissue
  next i _ => exact exec_inv hissue h
  next e _ =>
    cases hissue
    exact raise_inv .illegalCommand e.info w h

/-- R280: a command cut off by a reset has stored some of its symbols, and the reset follows. -/
theorem abandon_inv {s : State} (w : Word) (n : Nat) (h : s.Inv) : (s.abandon w n).Inv := by
  obtain ⟨hcoef, hin, hout⟩ := memoriesWf_of_inv h
  exact resetCsrs_inv (withMemories_inv h hcoef hin (storeSymbols_wf _ _ _ hout))

/-- Every move of the host and of the reset input keeps the invariant (R97, R280): an address has the width of its
space, so a write stays in its memory (R80). -/
theorem move_inv {s t : State} {m : HostMove} (hmove : s.move m = .next t) (h : s.Inv) : t.Inv := by
  obtain ⟨hcoef, hin, hout⟩ := memoriesWf_of_inv h
  cases m with
  | issue w => exact issue_inv hmove h
  | writeCoef a v =>
    cases hmove
    have ha : 2 * a.toNat + 1 < coefBytes := by simp only [coefBytes]; omega
    exact withMemories_inv h (Memory.writeHalf_wf v hcoef ha) hin hout
  | writeIn a v =>
    cases hmove
    have ha : 4 * a.toNat + 3 < sampleBytes := by simp only [sampleBytes]; omega
    exact withMemories_inv h hcoef (Memory.writeWord_wf v hin ha) hout
  | writeOut a v =>
    cases hmove
    have ha : 4 * a.toNat + 3 < sampleBytes := by simp only [sampleBytes]; omega
    exact withMemories_inv h hcoef hin (Memory.writeWord_wf v hout ha)
  | readCoef _ | readIn _ | readOut _ =>
    cases hmove
    exact h
  | hardwareReset =>
    cases hmove
    exact resetCsrs_inv h
  | resetDuring w n =>
    cases hmove
    exact abandon_inv w n h

/-- Settles O53: a step is idle or one move, taken from a state that differs in the coming moves alone. -/
theorem everyStepKeepsTheInvariant : Obligations.EveryStepKeepsTheInvariant := by
  intro s t h hstep
  cases hpending : s.pending with
  | nil =>
    rw [step_idle s hpending] at hstep
    cases hstep
    exact h
  | cons m rest =>
    rw [step_pending s m rest hpending] at hstep
    exact move_inv hstep h

end Sys2Proof.Machine
end

section
/-!
PROOFS, the host's memory access. What a write and a read of COEF, IN and OUT between two commands do to the state, and
that a read after a write gives the word written, or the word that stood there at any other address
(`20_memory.md` R88, R97).
-/

namespace Sys2Proof.Machine

/-! ## A read after a write, at addresses of a fixed width -/

section words
variable {n : Nat} (a b : BitVec n) {m : Memory}

theorem Memory.readWord_writeWord (v : Word) (h : risingCells m.cells = true) :
    (m.writeWord a.toNat v).readWord b.toNat = if b = a then v else m.readWord b.toNat := by
  split
  next hba => rw [hba, readWord_writeWord_same m _ v h]
  next hba => exact readWord_writeWord_ne m _ _ v (mt BitVec.eq_of_toNat_eq hba)

theorem Memory.readHalf_writeHalf (v : Half) (h : risingCells m.cells = true) :
    (m.writeHalf a.toNat v).readHalf b.toNat = if b = a then v else m.readHalf b.toNat := by
  split
  next hba => rw [hba, readHalf_writeHalf_same m _ v h]
  next hba => exact readHalf_writeHalf_ne m _ _ v (mt BitVec.eq_of_toNat_eq hba)

end words

/-- R86: byte `x` of IN or OUT belongs to word `x / 4` alone. -/
theorem Memory.readByte_writeWord_of_div_ne (m : Memory) (v : Word) {a x : Nat} (h : x / 4 ≠ a) :
    (m.writeWord a v).readByte x = m.readByte x := readByte_writeWord_ne m a x v (by omega)

/-- R86: byte `x` of COEF belongs to word `x / 2` alone. -/
theorem Memory.readByte_writeHalf_of_div_ne (m : Memory) (v : Half) {a x : Nat} (h : x / 2 ≠ a) :
    (m.writeHalf a v).readByte x = m.readByte x := readByte_writeHalf_ne m a x v (by omega)

/-! ## The step of each access -/

section steps
variable {s : State} {rest : List HostMove}

theorem step_writeCoef {a : BitVec 9} {v : Half} (h : s.pending = .writeCoef a v :: rest) :
    step s = .next { s with pending := rest, coefMem := s.coefMem.writeHalf a.toNat v } := step_pending s _ rest h

theorem step_writeIn {a : Half} {v : Word} (h : s.pending = .writeIn a v :: rest) :
    step s = .next { s with pending := rest, inMem := s.inMem.writeWord a.toNat v } := step_pending s _ rest h

theorem step_writeOut {a : Half} {v : Word} (h : s.pending = .writeOut a v :: rest) :
    step s = .next { s with pending := rest, outMem := s.outMem.writeWord a.toNat v } := step_pending s _ rest h

theorem step_readCoef {a : BitVec 9} (h : s.pending = .readCoef a :: rest) :
    step s = .next { s with
      pending := rest, hostReads := s.hostReads ++ [.coef (s.coefMem.readHalf a.toNat)] } := step_pending s _ rest h

theorem step_readIn {a : Half} (h : s.pending = .readIn a :: rest) :
    step s = .next { s with
      pending := rest, hostReads := s.hostReads ++ [.sample (s.inMem.readWord a.toNat)] } := step_pending s _ rest h

theorem step_readOut {a : Half} (h : s.pending = .readOut a :: rest) :
    step s = .next { s with
      pending := rest, hostReads := s.hostReads ++ [.symbol (s.outMem.readWord a.toNat)] } := step_pending s _ rest h

end steps

/-! ## A write and then a read -/

/-- Settles O9: the steps are a word write and a word read of IN, so the word read is that of the memory written. -/
theorem hostReadOfInGivesTheWordWritten : Obligations.HostReadOfInGivesTheWordWritten := by
  intro s a b v rest ⟨_, hin, _⟩ hpending
  refine ⟨_, _, step_writeIn hpending, step_readIn rfl, rfl, ?_,
    fun x hx => s.inMem.readByte_writeWord_of_div_ne v hx⟩
  rw [Memory.readWord_writeWord a b v (Memory.wf_rising hin)]

/-- Settles O10: as for IN, with the words of COEF of two bytes and those of OUT of four. -/
theorem hostReadOfCoefAndOutGivesTheWordWritten : Obligations.HostReadOfCoefAndOutGivesTheWordWritten := by
  constructor
  · intro s a b v rest ⟨hcoef, _, _⟩ hpending
    refine ⟨_, _, step_writeCoef hpending, step_readCoef rfl, rfl, ?_,
      fun x hx => s.coefMem.readByte_writeHalf_of_div_ne v hx⟩
    rw [Memory.readHalf_writeHalf a b v (Memory.wf_rising hcoef)]
  · intro s a b v rest ⟨_, _, hout⟩ hpending
    refine ⟨_, _, step_writeOut hpending, step_readOut rfl, rfl, ?_,
      fun x hx => s.outMem.readByte_writeWord_of_div_ne v hx⟩
    rw [Memory.readWord_writeWord a b v (Memory.wf_rising hout)]

end Sys2Proof.Machine
end

section
/-!
PROOFS, the decoder word by word. The tests of `30_encoding.md` R115 on the fields of any word, and from them that
`decode` and `encode` are inverse to each other (R111, R112, R114).
-/

namespace Sys2Proof

/-! ## The opcode map -/

/-- R114: the map of the opcode table is one to one. -/
theorem Opcode.ofBits_eq_some_iff {op : BitVec 4} {m : Opcode} : Opcode.ofBits op = some m ↔ op = m.bits := by
  revert op
  cases m <;> decide

/-- R114: the reserved opcodes are 8 to 15. -/
theorem Opcode.ofBits_eq_none_iff {op : BitVec 4} : Opcode.ofBits op = none ↔ 8 ≤ op.toNat := by
  revert op
  decide

/-- R112: `a` is an operand of WRCSR and RDCSR alone. -/
theorem Opcode.usesA_eq_false_iff (m : Opcode) :
    m.format.usesA = false ↔ m.bits.toNat ≠ 1 ∧ m.bits.toNat ≠ 2 := by
  cases m <;> decide

/-- R112: `imm` is an operand of WRCSR, SETBW and EXEC alone. -/
theorem Opcode.usesImm_eq_false_iff (m : Opcode) :
    m.format.usesImm = false ↔ m.bits.toNat ≠ 1 ∧ m.bits.toNat ≠ 4 ∧ m.bits.toNat ≠ 5 := by
  cases m <;> decide

/-! ## The fields of a word as numbers -/

section fields
variable (w : Word)

theorem fieldsOf_op_toNat : (fieldsOf w).op.toNat = w.toNat / 2 ^ 28 := by
  simp [fieldsOf, Nat.shiftRight_eq_div_pow]
  omega

theorem fieldsOf_rsv_toNat : (fieldsOf w).rsv.toNat = w.toNat / 2 ^ 24 % 16 := by
  simp [fieldsOf, Nat.shiftRight_eq_div_pow]

theorem fieldsOf_a_toNat : (fieldsOf w).a.toNat = w.toNat / 2 ^ 16 % 256 := by
  simp [fieldsOf, Nat.shiftRight_eq_div_pow]

theorem fieldsOf_imm_toNat : (fieldsOf w).imm.toNat = w.toNat % 2 ^ 16 := by
  simp [fieldsOf]

end fields

/-- R111: the number of a word by its four fields. -/
theorem Fields.word_toNat (f : Fields) :
    f.word.toNat = f.op.toNat * 2 ^ 28 + f.rsv.toNat * 2 ^ 24 + f.a.toNat * 2 ^ 16 + f.imm.toNat := by
  have hop := fieldsOf_op_toNat f.word
  have hrsv := fieldsOf_rsv_toNat f.word
  have ha := fieldsOf_a_toNat f.word
  have himm := fieldsOf_imm_toNat f.word
  rw [fieldsOf_word] at hop hrsv ha himm
  omega

/-- R111: a word is made of its four fields and nothing else. -/
@[simp] theorem word_fieldsOf (w : Word) : (fieldsOf w).word = w := by
  apply BitVec.eq_of_toNat_eq
  rw [Fields.word_toNat, fieldsOf_op_toNat, fieldsOf_rsv_toNat, fieldsOf_a_toNat, fieldsOf_imm_toNat]
  omega

/-! ## The tests of R115 -/

/-- R112, R115: with an opcode in use, `rsv` is tested first, and then the fields the format says must be 0. -/
theorem Fields.illegal_of_opcode {f : Fields} {m : Opcode} (h : Opcode.ofBits f.op = some m) :
    f.illegal =
      if f.rsv ≠ 0 then some .mustBeZero
      else if (m.format.usesA = false ∧ f.a ≠ 0) ∨ (m.format.usesImm = false ∧ f.imm ≠ 0) then some .mustBeZero
      else none := by
  simp only [Fields.illegal, h, ite_or]

theorem decode_of_opcode {w : Word} {m : Opcode} (h : Opcode.ofBits (fieldsOf w).op = some m) :
    decode w =
      if (fieldsOf w).rsv ≠ 0 then .error .mustBeZero
      else if (m.format.usesA = false ∧ (fieldsOf w).a ≠ 0) ∨ (m.format.usesImm = false ∧ (fieldsOf w).imm ≠ 0) then
        .error .mustBeZero
      else .ok (m.build (fieldsOf w).a (fieldsOf w).imm) := by
  simp only [decode, Fields.illegal_of_opcode h, h]
  split_ifs <;> rfl

/-- R115: a reserved opcode decides alone. -/
theorem decode_of_reserved {w : Word} (h : 8 ≤ w.toNat / 2 ^ 28) : decode w = .error .reservedOpcode := by
  have hop : Opcode.ofBits (fieldsOf w).op = none := Opcode.ofBits_eq_none_iff.mpr (by rwa [fieldsOf_op_toNat])
  simp only [decode, Fields.illegal, hop]

/-- R114: an opcode below 8 names a mnemonic. -/
theorem exists_opcode_of_lt {w : Word} (h : w.toNat / 2 ^ 28 < 8) :
    ∃ m, Opcode.ofBits (fieldsOf w).op = some m := by
  apply Option.ne_none_iff_exists'.mp
  rw [Ne, Opcode.ofBits_eq_none_iff, fieldsOf_op_toNat]
  omega

/-- R115: with an opcode in use there is one reason for which a word is illegal. -/
theorem decode_eq_mustBeZero {w : Word} (hop : w.toNat / 2 ^ 28 < 8) (hillegal : ∀ i, decode w ≠ .ok i) :
    decode w = .error .mustBeZero := by
  obtain ⟨m, hm⟩ := exists_opcode_of_lt hop
  rw [decode_of_opcode hm] at hillegal ⊢
  split_ifs at hillegal ⊢ with hrsv hused
  · rfl
  · rfl
  · exact absurd rfl (hillegal _)

/-- Settles O3: the fields and the format's tests, written as numbers. -/
theorem decodeTestsTheFieldsInOrder : Obligations.DecodeTestsTheFieldsInOrder := by
  intro w
  by_cases hop : 8 ≤ w.toNat / 2 ^ 28
  · rw [decode_of_reserved hop]
    exact (if_pos hop).symm
  · obtain ⟨m, hm⟩ := exists_opcode_of_lt (Nat.lt_of_not_le hop)
    have hbits : w.toNat / 2 ^ 28 = m.bits.toNat := by
      rw [← fieldsOf_op_toNat, Opcode.ofBits_eq_some_iff.mp hm]
    rw [decode_of_opcode hm]
    simp only [ne_eq, Opcode.usesA_eq_false_iff, Opcode.usesImm_eq_false_iff, ← hbits, BitVec.toNat_eq, hop,
      fieldsOf_rsv_toNat, fieldsOf_a_toNat, fieldsOf_imm_toNat, if_false, and_assoc]
    simp only [← fieldsOf_a_toNat, ← fieldsOf_imm_toNat, BitVec.ofNat_toNat, BitVec.setWidth_eq]
    rw [hbits]
    cases m <;> rfl

/-! ## The word of a legal word's command -/

/-- R112, R115: a mnemonic with fields that pass the tests keeps them. -/
theorem Opcode.build_fields {f : Fields} {m : Opcode} (hop : Opcode.ofBits f.op = some m) (hlegal : f.illegal = none) :
    (m.build f.a f.imm).fields = f := by
  rw [Fields.illegal_of_opcode hop] at hlegal
  split_ifs at hlegal with hrsv hused
  have ha (h : m.format.usesA = false) : f.a = 0 := by_contra fun hne => hused (.inl ⟨h, hne⟩)
  have himm (h : m.format.usesImm = false) : f.imm = 0 := by_contra fun hne => hused (.inr ⟨h, hne⟩)
  obtain ⟨op, rsv, a, imm⟩ := f
  obtain rfl : op = m.bits := Opcode.ofBits_eq_some_iff.mp hop
  obtain rfl : rsv = 0 := not_ne_iff.mp hrsv
  cases m with
  | nop | create | destroy | reset =>
    obtain rfl : a = 0 := ha rfl
    obtain rfl : imm = 0 := himm rfl
    rfl
  | setbw | exec =>
    obtain rfl : a = 0 := ha rfl
    rfl
  | rdcsr =>
    obtain rfl : imm = 0 := himm rfl
    rfl
  | wrcsr => rfl

/-- R115: where a command comes from. -/
theorem decode_ok_cases {w : Word} {i : Instr} (h : decode w = .ok i) :
    ∃ m, Opcode.ofBits (fieldsOf w).op = some m ∧ (fieldsOf w).illegal = none ∧
      i = m.build (fieldsOf w).a (fieldsOf w).imm := by
  simp only [decode] at h
  split at h
  case h_2 m hlegal hop => exact ⟨m, hop, hlegal, (Except.ok.inj h).symm⟩
  all_goals cases h

/-- R115: a word decodes to a command exactly when it is the command's word. -/
theorem decode_eq_ok_iff {w : Word} {i : Instr} : decode w = .ok i ↔ encode i = w := by
  constructor
  · intro h
    obtain ⟨m, hop, hlegal, rfl⟩ := decode_ok_cases h
    rw [encode, Opcode.build_fields hop hlegal, word_fieldsOf]
  · rintro rfl
    exact decode_encode i

/-- R114: the opcode table's numbering of a command's word. -/
theorem decodeTableWord_encode (i : Instr) : decodeTableWord 32 (encode i).toNat = some i := by
  rw [decodeTableWord, Nat.mod_eq_of_lt (encode i).isLt, BitVec.ofNat_toNat, BitVec.setWidth_eq, decode_encode]

/-- Settles O1: every command's fields are legal, so well-formedness asks nothing more of it. -/
theorem decodeOfEncodeGivesTheCommand : Obligations.DecodeOfEncodeGivesTheCommand := by
  intro i _
  exact ⟨decode_encode i, decodeTableWord_encode i⟩

/-- Settles O2. -/
theorem encodeOfDecodeGivesTheWord : Obligations.EncodeOfDecodeGivesTheWord := by
  intro w i h
  exact decode_eq_ok_iff.mp h

/-- Settles O4: each legal word is the one its command encodes to, and the illegal ones fail a test of R115. -/
theorem workedEncodingsDecodeAsWritten : Obligations.WorkedEncodingsDecodeAsWritten := by
  have hlegal {w : Word} {i : Instr} (h : encode i = w) : decode w = .ok i := decode_eq_ok_iff.mpr h
  exact ⟨hlegal rfl, hlegal rfl, hlegal rfl, hlegal rfl, hlegal rfl, hlegal rfl, by decide, rfl, by decide,
    decode_of_reserved (by decide), rfl⟩

end Sys2Proof
end

section
/-!
PROOFS, the assembler. A line is refused exactly when an operand does not fit, and otherwise gives the words of its
commands, written as numbers (`30_encoding.md` R119, R120).
-/

namespace Sys2Proof

/-- R111: the word of a command as a number, from its opcode and its operands. -/
theorem encode_eq_ofNat (i : Instr) :
    encode i = BitVec.ofNat 32
      (i.fields.op.toNat * 2 ^ 28 + i.fields.a.toNat * 2 ^ 16 + i.fields.imm.toNat) := by
  have hrsv : i.fields.rsv = 0 := by cases i <;> rfl
  apply BitVec.eq_of_toNat_eq
  rw [encode, BitVec.toNat_ofNat, ← Nat.mod_eq_of_lt i.fields.word.isLt, Fields.word_toNat, hrsv]
  simp

end Sys2Proof

namespace Sys2Proof.Machine

/-! ## Operands that fit -/

/-- R119: what an `<imm>` operand refuses. -/
theorem immFits_eq_false_iff {n : Nat} : immFits n = false ↔ 65535 < n := by simp [immFits]

/-- R119: what a `<csr>` operand given as a number refuses. -/
theorem fits_addr_eq_false_iff {n : Nat} : (CsrOperand.addr n).fits = false ↔ 255 < n := by simp [CsrOperand.fits]

section words
variable {imm : Nat} (himm : imm ≤ 65535)
include himm

theorem encode_wrcsr_ofNat (a : BitVec 8) :
    encode (.wrcsr a (BitVec.ofNat 16 imm)) = BitVec.ofNat 32 (0x10000000 + a.toNat * 2 ^ 16 + imm) := by
  simp [encode_eq_ofNat, Instr.fields, Opcode.bits, Nat.mod_eq_of_lt (Nat.lt_succ_of_le himm)]

theorem encode_setbw_ofNat : encode (.setbw (BitVec.ofNat 16 imm)) = BitVec.ofNat 32 (0x40000000 + imm) := by
  simp [encode_eq_ofNat, Instr.fields, Opcode.bits, Nat.mod_eq_of_lt (Nat.lt_succ_of_le himm)]

theorem encode_exec_ofNat : encode (.exec (BitVec.ofNat 16 imm)) = BitVec.ofNat 32 (0x50000000 + imm) := by
  simp [encode_eq_ofNat, Instr.fields, Opcode.bits, Nat.mod_eq_of_lt (Nat.lt_succ_of_le himm)]

end words

theorem encode_rdcsr (a : BitVec 8) : encode (.rdcsr a) = BitVec.ofNat 32 (0x20000000 + a.toNat * 2 ^ 16) := by
  simp [encode_eq_ofNat, Instr.fields, Opcode.bits]

theorem assemble_of_wellFormed {c : AsmCmd} (h : c.wellFormed = true) : assemble c = some (asmWords c) := if_pos h

/-- R119: a line with an operand that does not fit is refused whole. -/
theorem assemble_eq_none_iff {c : AsmCmd} : assemble c = none ↔ c.wellFormed = false := by
  simp [assemble]

theorem assemble_eq_some_iff {c : AsmCmd} {ws : List Word} :
    assemble c = some ws ↔ c.wellFormed = true ∧ asmWords c = ws := by
  simp [assemble]

/-- R34, R119: a register's name stands for its address, which fits. -/
theorem assemble_csrName (c : Csr) (imm : Nat) :
    assemble (.wrcsr (.name c) imm) = assemble (.wrcsr (.addr (csrAddr c).toNat) imm) ∧
    assemble (.rdcsr (.name c)) = assemble (.rdcsr (.addr (csrAddr c).toNat)) := by
  have hfits : (csrAddr c).toNat ≤ 255 := Nat.le_of_lt_succ (csrAddr c).isLt
  simp [assemble, AsmCmd.wellFormed, CsrOperand.fits, asmWords, operandAddr, hfits]

/-- R119: the lines with operands, the CSR one given as an address. -/
theorem assemble_operands {a imm : Nat} (ha : a ≤ 255) (himm : imm ≤ 65535) :
    assemble (.wrcsr (.addr a) imm) = some [BitVec.ofNat 32 (0x10000000 + a * 2 ^ 16 + imm)] ∧
    assemble (.rdcsr (.addr a)) = some [BitVec.ofNat 32 (0x20000000 + a * 2 ^ 16)] ∧
    assemble (.setbw imm) = some [BitVec.ofNat 32 (0x40000000 + imm)] ∧
    assemble (.exec imm) = some [BitVec.ofNat 32 (0x50000000 + imm)] := by
  have haddr : (BitVec.ofNat 8 a).toNat = a := by rw [BitVec.toNat_ofNat, Nat.mod_eq_of_lt (Nat.lt_succ_of_le ha)]
  simp only [assemble, AsmCmd.wellFormed, CsrOperand.fits, immFits, ha, himm, decide_true, Bool.and_self, if_true,
    asmWords, operandAddr, encode_wrcsr_ofNat himm, encode_rdcsr, encode_setbw_ofNat himm, encode_exec_ofNat himm,
    haddr, and_self]

theorem assemble_word (n : Nat) : assemble (.word n) = if n < 2 ^ 32 then some [BitVec.ofNat 32 n] else none := by
  simp only [assemble, AsmCmd.wellFormed, wordFits, decide_eq_true_eq, asmWords]

/-! ## The pseudo-commands -/

/-- R120: the staged writes of a pseudo-command, with values that fit. -/
theorem writes_eq_ofNat {l : List (Csr × Nat)} (h : ∀ p ∈ l, p.2 ≤ 65535) :
    asmWords.writes l = l.map fun p => BitVec.ofNat 32 (0x10000000 + (csrAddr p.1).toNat * 2 ^ 16 + p.2) :=
  List.map_congr_left fun p hp => encode_wrcsr_ofNat (h p hp) (csrAddr p.1)

theorem assemble_config {k m b s o d w : Nat} (hk : k ≤ 65535) (hm : m ≤ 65535) (hb : b ≤ 65535) (hs : s ≤ 65535)
    (ho : o ≤ 65535) (hd : d ≤ 65535) (hw : w ≤ 65535) :
    assemble (.config k m b s o d w) = some
      [BitVec.ofNat 32 (0x10000000 + k), BitVec.ofNat 32 (0x10010000 + m), BitVec.ofNat 32 (0x10020000 + b),
       BitVec.ofNat 32 (0x10030000 + s), BitVec.ofNat 32 (0x10040000 + o), BitVec.ofNat 32 (0x10050000 + d),
       BitVec.ofNat 32 (0x10060000 + w)] := by
  rw [assemble_of_wellFormed (by simp [AsmCmd.wellFormed, immFits, *]), asmWords, writes_eq_ofNat (by simp [*])]
  simp [csrAddr]

theorem assemble_buffers {i o c : Nat} (hi : i ≤ 65535) (ho : o ≤ 65535) (hc : c ≤ 65535) :
    assemble (.buffers i o c) = some
      [BitVec.ofNat 32 (0x10070000 + i), BitVec.ofNat 32 (0x10080000 + o), BitVec.ofNat 32 (0x10090000 + c)] := by
  rw [assemble_of_wellFormed (by simp [AsmCmd.wellFormed, immFits, *]), asmWords, writes_eq_ofNat (by simp [*])]
  simp [csrAddr]

/-- R120: `run` is `buffers` and then `exec`. -/
theorem assemble_run {i o c n : Nat} {b e : List Word} (hbuffers : assemble (.buffers i o c) = some b)
    (hexec : assemble (.exec n) = some e) : assemble (.run i o c n) = some (b ++ e) := by
  obtain ⟨hfits, rfl⟩ := assemble_eq_some_iff.mp hbuffers
  obtain ⟨hn, rfl⟩ := assemble_eq_some_iff.mp hexec
  refine assemble_of_wellFormed ?_
  simpa [AsmCmd.wellFormed, and_assoc] using And.intro hfits hn

/-! ## The whole table -/

/-- Settles O5: a line's words where its operands fit, and a refusal where one does not. -/
theorem assemblerGivesTheWordsOfItsTable : Obligations.AssemblerGivesTheWordsOfItsTable := by
  refine ⟨⟨rfl, rfl, rfl, rfl⟩, fun a imm => assemble_operands, assemble_csrName, assemble_word, ?wrcsrRefused,
    ?rdcsrRefused, ?immRefused, fun k m b s o d w => assemble_config, ?configRefused, ?run, ?buffersRefused,
    ?runRefused⟩
  case run =>
    intro i o c n hi ho hc hn
    obtain ⟨-, -, -, hexec⟩ := assemble_operands (Nat.zero_le 255) hn
    have hbuffers := assemble_buffers hi ho hc
    exact ⟨_, _, hbuffers, hexec, rfl, assemble_run hbuffers hexec⟩
  case wrcsrRefused | rdcsrRefused | immRefused | configRefused | buffersRefused | runRefused =>
    simp only [assemble_eq_none_iff, AsmCmd.wellFormed, List.all_cons, List.all_nil, Bool.and_true,
      Bool.and_eq_false_iff, fits_addr_eq_false_iff, immFits_eq_false_iff, and_self, imp_self, implies_true]

end Sys2Proof.Machine
end

section
/-!
PROOFS, the answer to an issued word. An illegal word is answered by the entry of an error (`60_exceptions.md` R243
to R245), and every word, legal or not, by one response (`30_encoding.md` R116).
-/

namespace Sys2Proof.Machine

section issue
variable {s : State} {w : Word} {rest : List HostMove} (hpending : s.pending = .issue w :: rest)
include hpending

theorem step_issue_of_decode {i : Instr} (h : decode w = .ok i) : step s = exec i { s with pending := rest } := by
  rw [step_issue s w rest hpending, State.issue_of_decode _ h]

theorem step_issue_of_illegal {e : DecodeError} (h : decode w = .error e) :
    step s = .next (State.illegalWord { s with pending := rest } e w) := by
  simp only [step_issue s w rest hpending, State.issue, h]

end issue

/-- Settles O7: the two kinds of illegal word, each with its info value. -/
theorem illegalWordRaisesIllegalCommand : Obligations.IllegalWordRaisesIllegalCommand := by
  intro s w rest hpending
  exact ⟨fun hop => step_issue_of_illegal hpending (decode_of_reserved hop),
    fun hop hillegal => step_issue_of_illegal hpending (decode_eq_mustBeZero hop hillegal)⟩

/-- R116: no command that succeeds has responded before its response, or touches the host's coming moves. -/
theorem Succeeds.hostLists_eq {i : Instr} {s u : State} {data : Word} (h : Succeeds i s u data) :
    u.responses = s.responses ∧ u.pending = s.pending := by
  cases h with
  | nop | rdcsr _ _ | wrcsr _ _ _ | create _ | setbw _ _ | exec _ | destroy _ | reset => exact ⟨rfl, rfl⟩

/-- No register reads the host's coming moves. -/
theorem readCsr_withPending (s : State) (moves : List HostMove) (c : Csr) :
    State.readCsr { s with pending := moves } c = s.readCsr c := by
  cases c <;> rfl

/-- Settles O24: an illegal word and a command that fails are error entries; a command that succeeds responds with
the data of its kind. -/
theorem everyCommandGivesOneResponse : Obligations.EveryCommandGivesOneResponse := by
  intro s w rest hpending
  cases hdecode : decode w with
  | error e =>
    exact ⟨_, ⟨3, e.info⟩, step_issue_of_illegal hpending hdecode, rfl, rfl, fun _ => ⟨rfl, rfl⟩,
      fun hok => absurd hok (ErrorKind.code_ne_zero .illegalCommand)⟩
  | ok i =>
    have hstep := step_issue_of_decode hpending hdecode
    rcases exec_answers i { s with pending := rest } with ⟨e, info, -, hexec⟩ | ⟨u, data, hsucc, hexec⟩
    · exact ⟨_, ⟨e.code, info⟩, hstep.trans hexec, rfl, rfl, fun _ => ⟨rfl, rfl⟩,
        fun hok => absurd hok e.code_ne_zero⟩
    · obtain ⟨hresponses, hmoves⟩ := hsucc.hostLists_eq
      refine ⟨_, ⟨0, data⟩, hstep.trans hexec, by rw [State.respond_responses, hresponses], hmoves,
        fun hne => absurd rfl hne, fun _ => ⟨i, rfl, ?_⟩⟩
      cases hsucc with
      | nop | wrcsr _ _ _ | create _ | setbw _ _ | destroy _ | reset => rfl
      | rdcsr c haddr => exact ⟨c, csrAddr_of_csrAt _ c haddr, readCsr_withPending s rest c⟩
      | exec _ => exact ⟨rfl, rfl⟩

end Sys2Proof.Machine
end

section
/-!
PROOFS, the answer of a command in each case. `Fails` and `Succeeds` list the cases of `exec_cases`; here each case
gives the whole next state, with the error registers written as `60_exceptions.md` R244 says.
-/

namespace Sys2Proof.Machine

/-- A command in a case of `Fails` ends with that error. -/
theorem exec_of_fails {i : Instr} {s : State} {e : ErrorKind} {info : Word} (h : Fails i s e info) :
    exec i s = .next (s.fail e info i) := by
  cases h with
  | wrcsrUnimplemented haddr => simp only [exec, execWrcsr, haddr]
  | wrcsrReadOnly c haddr hro => simp [exec, execWrcsr, haddr, hro]
  | rdcsrUnimplemented haddr => simp only [exec, execRdcsr, haddr]
  | createRefused hcause => exact if_neg hcause
  | setbwNotCreated hcreated | execNotCreated hcreated | destroyNotCreated hcreated => exact if_pos hcreated
  | setbwZero hcreated => simp [exec, execSetbw, hcreated]
  | execCapacity hcreated hcap => simp [exec, execExec, immCount, hcreated, hcap]

/-- R244: the same with the error registers written out, for a command whose word is `w`. -/
theorem exec_of_fails_errs {i : Instr} {s : State} {e : ErrorKind} {info w : Word} (h : Fails i s e info)
    (hw : encode i = w) :
    exec i s = .next { s with
      errs := ⟨true, e.code, info, w, s.errs.cnt + 1⟩
      responses := s.responses ++ [⟨e.code, info⟩] } := by
  rw [exec_of_fails h, State.fail_eq_raise, hw]
  rfl

/-- A command in a case of `Succeeds` leaves that state and responds OK. -/
theorem exec_of_succeeds {i : Instr} {s u : State} {data : Word} (h : Succeeds i s u data) :
    exec i s = .next (u.respond data) := by
  cases h with
  | nop | reset => rfl
  | wrcsr c haddr hrw => simp [exec, execWrcsr, haddr, hrw]
  | rdcsr c haddr => simp only [exec, execRdcsr, haddr]
  | create hcause => exact if_pos hcause
  | setbw hcreated himm => rw [exec, execSetbw, if_neg (by simp [hcreated]), if_neg himm]
  | exec hpasses =>
    obtain ⟨hcreated, hcap⟩ := hpasses
    simp [exec, execExec, immCount, hcreated, Nat.not_lt_of_le hcap]
  | destroy hcreated => exact if_neg (by simp [hcreated])

/-- R111, R114: the word of WRCSR as a number, for the error registers. -/
theorem encode_wrcsr (a : BitVec 8) (imm : Half) :
    encode (.wrcsr a imm) = BitVec.ofNat 32 (0x10000000 + a.toNat * 2 ^ 16 + imm.toNat) := by
  simpa using encode_wrcsr_ofNat (Nat.le_of_lt_succ imm.isLt) a

/-- R111, R114: the word of SETBW as a number. -/
theorem encode_setbw (imm : Half) : encode (.setbw imm) = BitVec.ofNat 32 (0x40000000 + imm.toNat) := by
  simpa using encode_setbw_ofNat (Nat.le_of_lt_succ imm.isLt)

end Sys2Proof.Machine
end

section
/-!
PROOFS, the CSR map by address. Which addresses of `10_state.md` R34 name a register and which of them are writable,
what each register reads as by its field, and what reset leaves in it.
-/

namespace Sys2Proof.Machine

/-- The addresses that R34 gives no register. -/
abbrev UnimplementedAddr (n : Nat) : Prop :=
  (0x0A ≤ n ∧ n ≤ 0x0F) ∨ (0x19 ≤ n ∧ n ≤ 0x1F) ∨ (0x25 ≤ n ∧ n ≤ 0x2F) ∨ (0x3C ≤ n ∧ n ≤ 0x3F) ∨ 0x44 ≤ n

/-- R34: the gaps of the map, over its 256 addresses. -/
theorem csrAt_eq_none_iff_unimplementedAddr (a : BitVec 8) : csrAt a = none ↔ UnimplementedAddr a.toNat := by
  revert a
  decide

/-- R33, R141: the writable registers are those at 0x00 to 0x09. -/
theorem csrWritable_eq (c : Csr) : csrWritable c = decide ((csrAddr c).toNat ≤ 0x09) := rfl

/-- R33, R34: an address outside the gaps names a register, whose access class the address decides. -/
theorem exists_csrAt {a : BitVec 8} (h : ¬ UnimplementedAddr a.toNat) :
    ∃ c, csrAt a = some c ∧ csrWritable c = decide (a.toNat ≤ 0x09) := by
  obtain ⟨c, haddr⟩ := Option.ne_none_iff_exists'.mp (mt (csrAt_eq_none_iff_unimplementedAddr a).mp h)
  exact ⟨c, haddr, by rw [csrWritable_eq, csrAddr_of_csrAt a c haddr]⟩

theorem exists_csrAt_writable {a : BitVec 8} (h : a.toNat ≤ 0x09) :
    ∃ c, csrAt a = some c ∧ csrWritable c = true := by
  obtain ⟨c, haddr, hrw⟩ := exists_csrAt (a := a) (by omega)
  exact ⟨c, haddr, hrw.trans (decide_eq_true h)⟩

theorem exists_csrAt_readOnly {a : BitVec 8} (h : ¬ UnimplementedAddr a.toNat) (hro : 0x09 < a.toNat) :
    ∃ c, csrAt a = some c ∧ csrWritable c = false := by
  obtain ⟨c, haddr, hrw⟩ := exists_csrAt h
  exact ⟨c, haddr, hrw.trans (decide_eq_false (Nat.not_le_of_lt hro))⟩

/-- R11: a complex register has the imaginary part in bits 31:16. -/
theorem pack_toNat (z : Cplx) : (pack z).toNat = z.im.toNat * 2 ^ 16 + z.re.toNat := by
  rw [pack, BitVec.toNat_append, ← Nat.shiftLeft_add_eq_or_of_lt z.re.isLt, Nat.shiftLeft_eq]

/-- R281, R282: after a reset every register reads as after power-on, whatever it read before. -/
theorem readCsr_resetCsrs (s : State) (c : Csr) : s.resetCsrs.readCsr c = State.reset.readCsr c := by
  cases c <;> rfl

end Sys2Proof.Machine
end

section
/-!
PROOFS, the commands of `40_control.md` but CREATE, each by the cases of its answer (R140, R141, R143, R149 to R152).
-/

namespace Sys2Proof.Machine

/-- R114: a command with opcode 0 is NOP, and its word is 0. -/
theorem encode_eq_zero_of_opcode {i : Instr} (h : (encode i).toNat / 2 ^ 28 = 0) : encode i = 0 := by
  rw [← fieldsOf_op_toNat, fieldsOf_encode] at h
  cases i with
  | nop => rfl
  | wrcsr _ _ | rdcsr _ | create | setbw _ | exec _ | destroy | reset => simp [Instr.fields, Opcode.bits] at h

/-- Settles O14: a word with opcode 0 that is a command is 0, so any other fails a test of R115. -/
theorem nopOnlyResponds : Obligations.NopOnlyResponds := by
  refine ⟨fun s => exec_of_succeeds .nop, rfl, fun w hop hne => decode_eq_mustBeZero (by omega) fun i hi => hne ?_⟩
  obtain rfl := decode_eq_ok_iff.mp hi
  exact encode_eq_zero_of_opcode hop

/-- Settles O15: the address names a writable register, a read-only one, or none. -/
theorem wrcsrWritesStagedRegistersOnly : Obligations.WrcsrWritesStagedRegistersOnly := by
  intro s a imm
  refine ⟨fun hrange => ?writable, fun hrange => ?readOnly, fun hrange => ?unimplemented⟩
  case writable =>
    obtain ⟨c, haddr, hrw⟩ := exists_csrAt_writable hrange
    refine ⟨_, c, csrAddr_of_csrAt a c haddr, exec_of_succeeds (.wrcsr c haddr hrw), ?_, fun d hd => ?_, rfl⟩
    · rw [readCsr_respond, readCsr_writeCsr_same s c imm hrw, BitVec.toNat_setWidth_of_le (by decide)]
    · rw [readCsr_respond, readCsr_writeCsr_ne s c d imm hd]
  case readOnly =>
    obtain ⟨c, haddr, hro⟩ := exists_csrAt_readOnly (a := a) (by omega) (by omega)
    exact exec_of_fails_errs (.wrcsrReadOnly c haddr hro) (encode_wrcsr a imm)
  case unimplemented =>
    have haddr := (csrAt_eq_none_iff_unimplementedAddr a).mpr hrange
    exact exec_of_fails_errs (.wrcsrUnimplemented haddr) (encode_wrcsr a imm)

/-- Settles O16: every register is at its address, the gaps have none, and each register is one field. -/
theorem rdcsrAnswersTheRegister : Obligations.RdcsrAnswersTheRegister := by
  refine ⟨fun s c => exec_of_succeeds (.rdcsr c (csrAt_csrAddr c)), fun s a hrange => ?unimplemented, fun s => ?values⟩
  case unimplemented =>
    have haddr := (csrAt_eq_none_iff_unimplementedAddr a).mpr hrange
    exact exec_of_fails_errs (.rdcsrUnimplemented haddr) (encode_rdcsr a)
  case values =>
    have narrow {n : Nat} (x : BitVec n) (h : n ≤ 32 := by decide) : (x.setWidth 32).toNat = x.toNat :=
      BitVec.toNat_setWidth_of_le h
    have hstatus : (s.readCsr .status).toNat =
        (if s.created then 1 else 0) + 2 * (if s.errs.err then 1 else 0) := by
      rw [mul_ite]
      exact statusWord_toNat s.created s.errs.err
    exact ⟨⟨narrow _, narrow _, narrow _, narrow _, narrow _, narrow _, narrow _, narrow _, narrow _, narrow _⟩,
      ⟨narrow _, narrow _, narrow _, narrow _, narrow _, narrow _, narrow _, narrow _, rfl⟩,
      ⟨hstatus, narrow _, rfl, rfl, rfl⟩,
      ⟨narrow _, narrow _, rfl, rfl, rfl, halfWord_toNat _, pack_toNat _, pack_toNat _, rfl, rfl, rfl, narrow _⟩,
      pack_toNat _, pack_toNat _, pack_toNat _, pack_toNat _⟩

/-- Settles O20: the two tests of R149 in their order. -/
theorem setbwReplacesTheBandwidthAlone : Obligations.SetbwReplacesTheBandwidthAlone := by
  intro s imm
  refine ⟨fun hcreated => ?notCreated, fun hcreated himm => ?zero, fun hcreated himm => ?replaced⟩
  case notCreated => exact exec_of_fails_errs (.setbwNotCreated hcreated) (encode_setbw imm)
  case zero =>
    subst himm
    exact exec_of_fails_errs (.setbwZero hcreated) (encode_setbw 0)
  case replaced => exact exec_of_succeeds (.setbw hcreated himm)

/-- Settles O21: the one test of R151. -/
theorem destroyClearsCreatedAlone : Obligations.DestroyClearsCreatedAlone := by
  intro s
  exact ⟨fun hcreated => exec_of_succeeds (.destroy hcreated),
    fun hcreated => exec_of_fails_errs (.destroyNotCreated hcreated) rfl⟩

/-- Settles O12: the command and the reset input leave the same state but for the response. -/
theorem resetCommandRestoresEveryCsr : Obligations.ResetCommandRestoresEveryCsr := by
  intro s
  refine ⟨s.resetCsrs.respond 0, exec_of_succeeds .reset, fun c => ?_, rfl, rfl, rfl, rfl, rfl, rfl, step_offer s _⟩
  rw [readCsr_respond, readCsr_resetCsrs]

/-- Settles O54: with HIST as it was. -/
theorem resetCompletesWithTheResetState : Obligations.ResetCompletesWithTheResetState := by
  intro s
  exact ⟨s.sync.hist, exec_of_succeeds .reset⟩

end Sys2Proof.Machine
end

section
/-!
PROOFS, CREATE. The bits of its cause, and the state a CREATE that passes its tests leaves (`40_control.md` R145,
R146).
-/

namespace Sys2Proof.Machine

/-- Seven cause bits of distinct weights: each bit of their sum is the flag of its weight. -/
theorem causeBits_testBit (b0 b1 b2 b3 b4 b5 b6 : Bool) :
    let cause := causeBit b0 1 + causeBit b1 2 + causeBit b2 4 + causeBit b3 8 + causeBit b4 16 + causeBit b5 32 +
      causeBit b6 64
    (cause.testBit 0 = b0 ∧ cause.testBit 1 = b1 ∧ cause.testBit 2 = b2 ∧ cause.testBit 3 = b3 ∧
      cause.testBit 4 = b4 ∧ cause.testBit 5 = b5 ∧ cause.testBit 6 = b6) ∧ cause < 128 := by
  revert b0 b1 b2 b3 b4 b5 b6
  decide

/-- Settles O18: each bit of the cause is its test, and a cause that is not 0 is raised as it is. -/
theorem createReportsEveryFailingTest : Obligations.CreateReportsEveryFailingTest := by
  intro s g cause
  obtain ⟨⟨hk, hm, hbeta, hbw, hdecim, hmod, htaps⟩, hlt⟩ := causeBits_testBit (g.k.toNat < 2) (g.m.toNat < 1)
    (g.beta.toNat = 0 || 32768 < g.beta.toNat) (g.bw.toNat = 0)
    (g.decim.toNat = 0 || g.k.toNat % g.decim.toNat ≠ 0 || g.k.toNat / g.decim.toNat < 2) (2 < g.mod.toNat)
    (Config.ntapsMax < 2 * g.k.toNat * g.m.toNat + 1)
  refine ⟨hk ▸ decide_eq_true_iff, hm ▸ decide_eq_true_iff, hbeta ▸ ?_, hbw ▸ decide_eq_true_iff, hdecim ▸ ?_,
    hmod ▸ decide_eq_true_iff, htaps ▸ decide_eq_true_iff, hlt,
    fun hcause => exec_of_fails_errs (.createRefused hcause) rfl⟩
  · simp only [Bool.or_eq_true, decide_eq_true_eq]
  · simp only [Bool.or_eq_true, decide_eq_true_eq]
    tauto

/-- R44, R146: the shortest filter, with `k` = 2 and `m` = 1, has 5 taps. -/
theorem Active.Legal.five_le_ntaps {a : Active} (h : a.Legal) : 5 ≤ a.ntaps.toNat := by
  obtain ⟨hk, hm, -, -, -, -, -, -, -, hntaps, -⟩ := h
  have hkm : 2 * 1 ≤ a.k.toNat * a.m.toNat := Nat.mul_le_mul hk hm
  rw [hntaps, Nat.mul_assoc]
  omega

/-- Settles O19: the tests pass, so the next state is `install`, whose configuration is legal. -/
theorem createInstallsTheStagedConfiguration : Obligations.CreateInstallsTheStagedConfiguration := by
  intro s g hk hm hbeta hbeta' hbw hdecim hmod hk2 hscheme htaps
  have hcause : createCause s.cfg = 0 := (createCause_eq_zero_iff g).mpr
    ⟨hk, hm, ⟨Nat.ne_of_gt hbeta, hbeta'⟩, Nat.ne_of_gt hbw, ⟨Nat.ne_of_gt hdecim, hmod, hk2⟩, hscheme, htaps⟩
  have hlegal : g.activate.Legal := activate_legal hcause
  obtain ⟨-, -, hk2_ge, hk2_le⟩ := hlegal.step_eq
  have ⟨_, _, _, _, _, _, _, _, _, hntaps, hntaps_le, hstep⟩ := hlegal
  have ⟨hrange, _⟩ := initial_sound hlegal
  exact ⟨_, exec_of_succeeds (.create hcause), rfl, rfl, rfl, rfl, rfl, rfl, rfl, rfl, hntaps, hstep, rfl, hk2_ge,
    hk2_le, hlegal.five_le_ntaps, hntaps_le, hlegal, hrange⟩

end Sys2Proof.Machine
end

section
/-!
PROOFS, the lifecycle. `CREATED` as a state machine of two states (`40_control.md` R153), and what an EXEC owes to the
staged configuration: nothing but the three buffer registers (R141, `70_reset_and_hazards.md` R293).
-/

namespace Sys2Proof.Machine

/-- Settles O22: an error keeps `CREATED`, and of the successes CREATE sets it and DESTROY and RESET clear it. -/
theorem lifecycleFollowsTheTwoStateMachine : Obligations.LifecycleFollowsTheTwoStateMachine := by
  intro i s t hexec
  rcases exec_cases hexec with ⟨e, info, hfails, rfl⟩ | ⟨u, data, hsucc, rfl⟩
  · cases hfails with
    | createRefused hcause => simp [hcause]
    | destroyNotCreated hcreated => exact hcreated
    | wrcsrUnimplemented _ | wrcsrReadOnly _ _ _ | rdcsrUnimplemented _ | setbwNotCreated _ | setbwZero _
    | execNotCreated _ | execCapacity _ _ => rfl
  · cases hsucc with
    | create hcause => simp [hcause]
    | nop | wrcsr _ _ _ | rdcsr _ _ | setbw _ _ | exec _ | destroy _ | reset => rfl

/-- R141: a write at 0x00 to 0x06 leaves the three buffer registers. -/
theorem Staged.write_buffers (g : Staged) {c : Csr} (v : Half) (h : (csrAddr c).toNat ≤ 0x06) :
    (g.write c v).inBase = g.inBase ∧ (g.write c v).outBase = g.outBase ∧ (g.write c v).outCap = g.outCap := by
  cases c
  case inBase | outBase | outCap => exact absurd h (by decide)
  all_goals exact ⟨rfl, rfl, rfl⟩

/-- The state with another staged configuration and other responses given so far. -/
def State.restaged (s : State) (g : Staged) (given : List Response) : State := { s with cfg := g, responses := given }

@[simp] theorem State.restaged_responses (s : State) (g : Staged) (given : List Response) :
    (s.restaged g given).responses = given := rfl

/-- R141: what WRCSR leaves. -/
theorem State.respond_writeCsr (s : State) (c : Csr) (v : Half) (data : Word) :
    (s.writeCsr c v).respond data = s.restaged (s.cfg.write c v) (s.responses ++ [⟨0, data⟩]) := rfl

section restaged
variable {s : State} {g : Staged} (given : List Response)
  (hin : g.inBase = s.cfg.inBase) (hout : g.outBase = s.cfg.outBase) (hcap : g.outCap = s.cfg.outCap)

include hin in
/-- R173: of the staged configuration the block loop reads `IN_BASE` alone. -/
theorem blockResult_restaged (n : Nat) : blockResult (s.restaged g given) n = blockResult s n := by
  simp only [State.restaged, blockResult, blockSamples, hin]

include hin hout in
/-- R173: and the symbols go where `OUT_BASE` says. -/
theorem afterBlock_restaged (n : Nat) : (s.restaged g given).afterBlock n = (s.afterBlock n).restaged g given := by
  rw [State.afterBlock, blockResult_restaged given hin, blockOut]
  simp only [State.restaged, State.afterBlock, blockOut, hout]

include hin hout hcap in
/-- R170, R173: of the staged configuration EXEC reads the three buffer registers alone, and it reads none of the
responses given before. -/
theorem exec_exec_restaged (n : Half) :
    ∃ v r, exec (.exec n) s = .next v ∧ v.responses = s.responses ++ [r] ∧
      exec (.exec n) (s.restaged g given) = .next (v.restaged g (given ++ [r])) := by
  rcases exec_answers (.exec n) s with ⟨e, info, hfails, hexec⟩ | ⟨u, data, hsucc, hexec⟩
  · refine ⟨_, _, hexec, rfl, ?_⟩
    have hfails' : Fails (.exec n) (s.restaged g given) e info := by
      cases hfails with
      | execNotCreated hcreated => exact .execNotCreated hcreated
      | execCapacity hcreated hlt => exact .execCapacity hcreated (hcap ▸ hlt)
    exact exec_of_fails hfails'
  · cases hsucc with
    | exec hpasses =>
      obtain ⟨hcreated, hle⟩ := hpasses
      have hpasses' : (s.restaged g given).execPasses n.toNat := ⟨hcreated, hcap ▸ hle⟩
      refine ⟨_, _, hexec, rfl, ?_⟩
      rw [exec_of_succeeds (.exec hpasses'), afterBlock_restaged given hin hout, blockResult_restaged given hin]
      rfl

end restaged

/-- Settles O34: the write leaves the buffer registers, which are all EXEC reads of the staged configuration. -/
theorem stagedWritesDoNotReachTheInstance : Obligations.StagedWritesDoNotReachTheInstance := by
  intro s t u v a imm n ha _ hwrite hexec hexec'
  obtain ⟨c, haddr, hrw⟩ := exists_csrAt_writable (a := a) (by omega)
  obtain rfl := csrAddr_of_csrAt a c haddr
  obtain ⟨hin, hout, hcap⟩ := s.cfg.write_buffers imm ha
  rw [exec_of_succeeds (.wrcsr c haddr hrw), State.respond_writeCsr] at hwrite
  cases hwrite
  obtain ⟨v, r, hv, hresponses, hu⟩ := exec_exec_restaged (s.responses ++ [⟨0, 0⟩]) hin hout hcap n
  cases hexec'.symm.trans hv
  cases hexec.symm.trans hu
  refine ⟨rfl, ?_⟩
  rw [State.restaged_responses, hresponses, List.getLast?_concat, List.getLast?_concat]

end Sys2Proof.Machine
end

section
/-!
PROOFS, the gain normaliser. `AGC(x)` as integers (`41_exec.md` R174), and the corner cases of R175: silence, and the
floor that the gain never falls below.
-/

namespace Sys2Proof.Machine

/-- R175: the power of two 16-bit components is from 0 to 2^31. -/
theorem agcPower_range (y : Cplx) : 0 ≤ agcPower y ∧ agcPower y ≤ 2 ^ 31 := by
  have sq_le (h : Half) : sext16 h * sext16 h ≤ 2 ^ 30 := by
    nlinarith only [sext16_ge h, sext16_le h]
  have hre := sq_le y.re
  have him := sq_le y.im
  exact ⟨add_nonneg (mul_self_nonneg _) (mul_self_nonneg _), by unfold agcPower; omega⟩

/-- Settles O35: the law of each narrowing. -/
theorem agcNormalisesAndMovesTheGain : Obligations.AgcNormalisesAndMovesTheGain := by
  intro st x g y e
  have sat16_eq (v : Int) : sat16 v = max (-32768) (min 32767 v) := clamp_eq_max_min _ _ _ (by decide)
  obtain ⟨hpos, hle⟩ := agcPower_range y
  refine ⟨?re, ?im, hpos, hle, ?gain, rfl⟩
  case re => exact (satCplx_re _ _).trans (sat16_eq _)
  case im => exact (satCplx_im _ _).trans (sat16_eq _)
  case gain => exact (agcGain_toNat st.gain y).trans (clamp_eq_max_min _ _ _ (by decide))

/-- R175 (a): a sample of 0 is 0 at every gain. -/
theorem agcOutput_zero (gain : BitVec 24) : agcOutput gain ⟨0, 0⟩ = ⟨0, 0⟩ := by
  simp only [agcOutput, sext16_zero, mul_zero]
  rfl

/-- Settles O36: the power of silence is 0, so the error is 2^26 and the update `GAIN >> 8`. -/
theorem silenceRaisesTheGain : Obligations.SilenceRaisesTheGain := by
  intro st hgain
  refine ⟨agcOutput_zero st.gain, ?_⟩
  have hnew := agcGain_toNat st.gain ⟨0, 0⟩
  have hpower : agcPower ⟨0, 0⟩ = 0 := rfl
  rw [hpower, clamp_eq_max_min _ _ _ (by decide)] at hnew
  simp only [zext, asr, sub_zero] at hnew
  rw [agc_fst, agcOutput_zero]
  have hmin : 256 ≤ st.gain.toNat := hgain
  dsimp only
  omega

/-- R175 (d): up to a gain of 11584 no sample gives a component beyond 5792. -/
theorem agcComponent_sq_le {gain : BitVec 24} (h : gain.toNat ≤ 11584) (x : Half) :
    sat16 (asr (zext gain * sext16 x) 16) * sat16 (asr (zext gain * sext16 x) 16) ≤ 5792 * 5792 := by
  have hgain : zext gain ≤ 11584 := Int.ofNat_le.mpr h
  have hpos := zext_nonneg gain
  have hge : -(11584 * 32768) ≤ zext gain * sext16 x := by nlinarith only [hgain, hpos, sext16_ge x]
  have hle : zext gain * sext16 x ≤ 11584 * 32768 := by nlinarith only [hgain, hpos, sext16_le x]
  have hfloor : -5792 ≤ asr (zext gain * sext16 x) 16 ∧ asr (zext gain * sext16 x) 16 ≤ 5792 := by
    unfold asr
    omega
  obtain ⟨hge', hle'⟩ := hfloor
  rw [sat16, clamp_of_mem _ _ _ (by omega) (by omega)]
  nlinarith only [hge', hle']

/-- R175 (d): the power passes 2^26, so the gain falls, only from a gain of 11585. -/
theorem le_gain_of_lt_agcPower {gain : BitVec 24} {x : Cplx} (h : 2 ^ 26 < agcPower (agcOutput gain x)) :
    11585 ≤ gain.toNat := by
  by_contra hlt
  have hre := agcComponent_sq_le (gain := gain) (by omega) x.re
  have him := agcComponent_sq_le (gain := gain) (by omega) x.im
  simp only [agcPower, agcOutput, satCplx_re, satCplx_im] at h
  omega

/-- R175 (d): a sample lowers the gain by at most 31/256 of itself, and that from 11585 on. -/
theorem agcGain_ge_floor {gain : BitVec 24} (x : Cplx) (h : 10182 ≤ gain.toNat) :
    10182 ≤ (agcGain gain (agcOutput gain x)).toNat := by
  have hnew := agcGain_toNat gain (agcOutput gain x)
  obtain ⟨-, hpower⟩ := agcPower_range (agcOutput gain x)
  have hpos := zext_nonneg gain
  rw [clamp_eq_max_min _ _ _ (by decide)] at hnew
  have hmove : 10182 ≤ zext gain + asr (zext gain * (2 ^ 26 - agcPower (agcOutput gain x))) 34 := by
    by_cases hfall : 2 ^ 26 < agcPower (agcOutput gain x)
    · have hgain : 11585 ≤ zext gain := Int.ofNat_le.mpr (le_gain_of_lt_agcPower hfall)
      have herr : zext gain * -(31 * 2 ^ 26) ≤ zext gain * (2 ^ 26 - agcPower (agcOutput gain x)) :=
        mul_le_mul_of_nonneg_left (by omega) hpos
      unfold asr
      omega
    · have hgain : 10182 ≤ zext gain := Int.ofNat_le.mpr h
      have herr : 0 ≤ zext gain * (2 ^ 26 - agcPower (agcOutput gain x)) := mul_nonneg hpos (by omega)
      unfold asr
      omega
  simp only [zext] at hnew hmove
  omega

end Sys2Proof.Machine
end

section
/-!
PROOFS, the gain along a run. What a step can do to the synchronizer state, and so to the gain (`41_exec.md`
R175 (d)).
-/

namespace Sys2Proof.Machine

/-- The synchronizer states that a step can leave, from the state `st` under the configuration `a` and the taps `coef`:
the one it found, one after a block of some samples, and the initial one of CREATE or, with HIST as it was, of a reset
(R34, R281). -/
inductive SyncAfter (a : Active) (coef : Memory) (st : Sync) : Sync → Prop where
  | kept : SyncAfter a coef st st
  | block (xs : List Cplx) : SyncAfter a coef st (runBlock a coef st xs).1
  | created : SyncAfter a coef st Sync.initial
  | reset : SyncAfter a coef st { Sync.initial with hist := st.hist }

theorem exec_syncAfter {i : Instr} {s t : State} (h : exec i s = .next t) :
    SyncAfter s.act s.coefMem s.sync t.sync := by
  rcases exec_cases h with ⟨e, info, -, rfl⟩ | ⟨u, data, hsucc, rfl⟩
  · exact .kept
  · cases hsucc with
    | nop | wrcsr _ _ _ | rdcsr _ _ | setbw _ _ | destroy _ => exact .kept
    | create _ => exact .created
    | exec _ => exact .block _
    | reset => exact .reset

theorem issue_syncAfter {s t : State} {w : Word} (h : s.issue w = .next t) :
    SyncAfter s.act s.coefMem s.sync t.sync := by
  unfold State.issue at h
  split at h
  next i _ => exact exec_syncAfter h
  next e _ =>
    cases h
    exact .kept

theorem move_syncAfter {s t : State} {m : HostMove} (h : s.move m = .next t) :
    SyncAfter s.act s.coefMem s.sync t.sync := by
  cases m with
  | issue w => exact issue_syncAfter h
  | writeCoef _ _ | writeIn _ _ | writeOut _ _ | readCoef _ | readIn _ | readOut _ =>
    cases h
    exact .kept
  | hardwareReset | resetDuring _ _ =>
    cases h
    exact .reset

theorem step_syncAfter {s t : State} (h : step s = .next t) : SyncAfter s.act s.coefMem s.sync t.sync := by
  cases hpending : s.pending with
  | nil =>
    rw [step_idle s hpending] at h
    cases h
    exact .kept
  | cons m rest =>
    rw [step_pending s m rest hpending] at h
    exact move_syncAfter (s := { s with pending := rest }) h

theorem runBlock_gain_ge_floor (a : Active) (coef : Memory) {st : Sync} (xs : List Cplx)
    (h : 10182 ≤ st.gain.toNat) : 10182 ≤ (runBlock a coef st xs).1.gain.toNat :=
  runBlock_invariant a coef (10182 ≤ ·.gain.toNat)
    (fun st x hst => (runSample_gain a coef st x).symm ▸ agcGain_ge_floor x hst) st xs h

theorem step_gain_ge_floor {s t : State} (h : 10182 ≤ s.sync.gain.toNat) (hstep : step s = .next t) :
    10182 ≤ t.sync.gain.toNat := by
  have hinitial : 10182 ≤ Sync.initial.gain.toNat := by decide
  have hafter := step_syncAfter hstep
  generalize t.sync = st at hafter ⊢
  cases hafter with
  | kept => exact h
  | block xs => exact runBlock_gain_ge_floor _ _ xs h
  | created | reset => exact hinitial

/-- Settles O37: by induction on the run, with the step lemma; the gain at power-on is 1.0. -/
theorem gainNeverFallsBelowItsFloor : Obligations.GainNeverFallsBelowItsFloor := by
  have hstart (coef inp out : Nat) (moves : List HostMove) :
      10182 ≤ ({ State.atPowerOn coef inp out with pending := moves } : State).sync.gain.toNat := by
    change 10182 ≤ Sync.initial.gain.toNat
    decide
  refine ⟨fun s t => step_gain_ge_floor, hstart, fun s hreach => ?_⟩
  induction hreach with
  | start coef inp out moves => exact hstart coef inp out moves
  | step s t _ hstep ih => exact step_gain_ge_floor ih hstep

end Sys2Proof.Machine
end

section
/-!
PROOFS, the number of symbols a block emits (`41_exec.md` R178). Each symbol moves the time of the next strobe on by
two smallest steps, each sample takes its share of `ONE_T` off it, and the ranges bound that time before and after.
-/

namespace Sys2Proof.Machine

/-- `HALF` as an integer. -/
def Sync.halfCount (st : Sync) : Int := if st.half then 1 else 0

theorem Sync.halfCount_range (st : Sync) : 0 ≤ st.halfCount ∧ st.halfCount ≤ 1 := by
  unfold Sync.halfCount
  split <;> decide

/-- R205: strobes are on-time and mid in turn, and the on-time ones emit. -/
theorem strobe_halfCount (a : Active) (st : Sync) (y : Cplx) :
    2 * ((strobe a st y).2.length : Int) = 1 - st.halfCount + (strobe a st y).1.halfCount := by
  obtain ⟨-, -, -, -, -, -, -, -, hhalf⟩ := strobe_frame a st y
  rw [strobe_length, Sync.halfCount, Sync.halfCount, hhalf]
  cases st.half with
  | false | true => rfl

/-- Steps (2) and (4) of R178: `TAU`, and a smallest step `31 * VMAX` more while the next strobe is a mid one, so that a
symbol counts for two smallest steps at once. -/
def Sync.strobeTime (a : Active) (st : Sync) : Int := zext st.tau + 31 * a.vMax * st.halfCount

/-- R211: the range of `TAU` bounds the strobe time. -/
theorem Sync.strobeTime_range {a : Active} {st : Sync} (ha : a.Legal) (h : st.InRange a) :
    0 ≤ st.strobeTime a ∧ st.strobeTime a ≤ 64 * a.vMax := by
  obtain ⟨hstep, hvMax, -⟩ := ha.step_eq
  obtain ⟨-, htau, -⟩ := h
  obtain ⟨hhalf, hhalf'⟩ := st.halfCount_range
  have hpos := zext_nonneg st.tau
  unfold Sync.strobeTime
  constructor
  · have hmid := mul_nonneg (vMax_nonneg a) hhalf
    linarith only [hpos, hmid]
  · have hmid := mul_le_of_le_one_right (vMax_nonneg a) hhalf'
    have hlt : zext st.tau ≤ 33 * a.vMax := by omega
    linarith only [hlt, hmid]

theorem strobePass_strobeTime {a : Active} {st : Sync} (ha : a.Legal) (h : st.LoopInRange a)
    (htau : st.tau.toNat < Config.oneT) :
    st.strobeTime a + 62 * a.vMax * (strobePass a st).2.length ≤ (strobePass a st).1.strobeTime a := by
  obtain ⟨hstep, hvMax, -⟩ := ha.step_eq
  obtain ⟨hpass, -⟩ := strobePass_tau_range ha h htau
  have hnominal : zext a.stepNom = 32 * a.vMax := by omega
  have hcount : 2 * ((strobePass a st).2.length : Int) = 1 - st.halfCount + (strobePass a st).1.halfCount :=
    strobe_halfCount a st _
  unfold Sync.strobeTime
  linear_combination hpass + 31 * a.vMax * hcount - hnominal

theorem strobeLoop_strobeTime {a : Active} (n : Nat) {st : Sync} (ha : a.Legal) (h : st.LoopInRange a) :
    st.strobeTime a + 62 * a.vMax * (strobeLoop a n st).2.length ≤ (strobeLoop a n st).1.strobeTime a := by
  induction n generalizing st with
  | zero => simp [strobeLoop]
  | succ n ih =>
    by_cases htau : st.tau.toNat < Config.oneT
    · rw [strobeLoop_succ_of_lt a n st htau, List.length_append]
      push_cast
      linear_combination strobePass_strobeTime ha h htau + ih (strobePass_loopInRange h)
    · simp [strobeLoop_of_ge a (n + 1) st (Nat.le_of_not_lt htau)]

/-- R203: a call of TIMING takes `ONE_T` off. -/
theorem timing_strobeTime {a : Active} {st : Sync} (z : Cplx) (ha : a.Legal) (h : st.InRange a) :
    st.strobeTime a + 62 * a.vMax * (timing a st z).2.length ≤ (timing a st z).1.strobeTime a + Config.oneT := by
  obtain ⟨-, -, hloop⟩ := (Sync.inRange_iff a st).mp h
  have hwindow : (shiftWindow st z).LoopInRange a := hloop
  have hge : (Config.oneT : Int) ≤ zext (strobeLoop a 2 (shiftWindow st z)).1.tau :=
    Int.ofNat_le.mpr (le_strobeLoop_two_tau ha hwindow)
  have htau : zext (timing a st z).1.tau = zext (strobeLoop a 2 (shiftWindow st z)).1.tau - Config.oneT := by
    have hlt := (strobeLoop a 2 (shiftWindow st z)).1.tau.isLt
    rw [timing_fst]
    exact zext_word32_of_mem _ (by omega) (by simp only [zext]; omega)
  have htime : (timing a st z).1.strobeTime a = (strobeLoop a 2 (shiftWindow st z)).1.strobeTime a - Config.oneT := by
    rw [Sync.strobeTime, htau, Sync.strobeTime]
    exact sub_add_eq_add_sub _ _ _
  have hmono := strobeLoop_strobeTime 2 ha hwindow
  have hshift : (shiftWindow st z).strobeTime a = st.strobeTime a := rfl
  rw [htime, timing_snd]
  omega

/-- Step (1) of R178: the samples before the next one with an MF output. -/
def Sync.samplesToOutput (a : Active) (st : Sync) : Nat := if st.dph = 0 then 0 else a.decim.toNat - st.dph.toNat

theorem Active.Legal.k_eq {a : Active} (h : a.Legal) : a.k.toNat = a.decim.toNat * a.k2 := by
  obtain ⟨-, -, -, -, -, -, hmod, -⟩ := h
  exact (Nat.mul_div_cancel' (Nat.dvd_of_mod_eq_zero hmod)).symm

theorem Active.Legal.decim_range {a : Active} (h : a.Legal) : 1 ≤ a.decim.toNat ∧ a.decim.toNat ≤ 255 := by
  have hk := h.k_eq
  obtain ⟨-, hm, -, -, -, hdecim, -, hk2, -, hntaps, hntaps', -⟩ := h
  have hkm : a.k.toNat ≤ a.k.toNat * a.m.toNat := Nat.le_mul_of_pos_right _ hm
  have hdk : a.decim.toNat ≤ a.decim.toNat * a.k2 := Nat.le_mul_of_pos_right _ (by omega)
  rw [Nat.mul_assoc] at hntaps
  omega

/-- R193: the decimator's phase counts modulo `D`. -/
theorem nextDph_toNat {a : Active} {dph : BitVec 8} (ha : a.Legal) (h : dph.toNat < a.decim.toNat) :
    (nextDph a dph).toNat = if dph.toNat + 1 = a.decim.toNat then 0 else dph.toNat + 1 := by
  obtain ⟨-, hdecim⟩ := ha.decim_range
  rw [nextDph, BitVec.toNat_ofNat]
  split
  next hlast => rw [hlast, Nat.mod_self, Nat.zero_mod]
  next hnext => rw [Nat.mod_eq_of_lt (a := dph.toNat + 1) (by omega), Nat.mod_eq_of_lt (by omega)]

/-- R191: the MF outputs that the next sample gives. -/
def Sync.outputDue (st : Sync) : Nat := if st.dph = 0 then 1 else 0

/-- Each sample shortens the wait for the next MF output by one, and an MF output starts a wait of `D`. -/
theorem samplesToOutput_nextDph {a : Active} {st : Sync} (ha : a.Legal) (h : st.dph.toNat < a.decim.toNat) :
    Sync.samplesToOutput a { st with dph := nextDph a st.dph } + 1 =
      st.samplesToOutput a + a.decim.toNat * st.outputDue := by
  have hnext := nextDph_toNat ha h
  simp only [Sync.samplesToOutput, Sync.outputDue, ← BitVec.toNat_inj, hnext]
  grind

theorem Sync.samplesToOutput_lt {a : Active} {st : Sync} (h : st.dph.toNat < a.decim.toNat) :
    st.samplesToOutput a < a.decim.toNat := by
  unfold Sync.samplesToOutput
  split
  next => omega
  next hdph =>
    have hpos : st.dph.toNat ≠ 0 := fun hz => hdph (BitVec.eq_of_toNat_eq hz)
    omega

/-- Step (5) of R178: the strobe time in units of `1/D`, with the part of `ONE_T` that the samples up to the next MF
output still have to pay for it. -/
def Sync.sampleTime (a : Active) (st : Sync) : Int :=
  a.decim.toNat * st.strobeTime a + Config.oneT * st.samplesToOutput a

/-- What a sample does to the sample time, by what it does to the strobe time. -/
theorem nextDph_sampleTime {a : Active} {st st' : Sync} (n : Nat) (ha : a.Legal) (h : st.dph.toNat < a.decim.toNat)
    (hdph : st'.dph = st.dph)
    (htime : st.strobeTime a + 62 * a.vMax * n ≤ st'.strobeTime a + Config.oneT * st.outputDue) :
    st.sampleTime a + 62 * a.decim.toNat * a.vMax * n ≤
      Sync.sampleTime a { st' with dph := nextDph a st'.dph } + Config.oneT := by
  have hsamples : (Sync.samplesToOutput a { st' with dph := nextDph a st'.dph } : Int) + 1 =
      st.samplesToOutput a + a.decim.toNat * st.outputDue := by
    rw [hdph]
    exact_mod_cast samplesToOutput_nextDph ha h
  have hstrobe : Sync.strobeTime a { st' with dph := nextDph a st'.dph } = st'.strobeTime a := rfl
  have hscaled := mul_le_mul_of_nonneg_left htime (Int.natCast_nonneg a.decim.toNat)
  rw [Sync.sampleTime, Sync.sampleTime, hstrobe]
  linear_combination hscaled - Config.oneT * hsamples

/-- A sample takes `ONE_T` off the sample time, and a symbol adds `62 * D * VMAX` at least. -/
theorem matchedFilter_sampleTime {a : Active} (coef : Memory) {st : Sync} (y : Cplx) (ha : a.Legal)
    (h : st.InRange a) :
    st.sampleTime a + 62 * a.decim.toNat * a.vMax * (matchedFilter a coef st y).2.length ≤
      (matchedFilter a coef st y).1.sampleTime a + Config.oneT := by
  have ⟨hdph, _⟩ := h
  by_cases hzero : st.dph = 0
  · obtain ⟨-, hkept, -⟩ := timing_frame a { st with hist := shiftHist a.ntaps.toNat st.hist y }
      (fir coef a.ntaps.toNat (shiftHist a.ntaps.toNat st.hist y))
    have hdue : st.outputDue = 1 := if_pos hzero
    rw [matchedFilter_output a coef st y hzero]
    refine nextDph_sampleTime _ ha hdph hkept ?_
    rw [hdue, Nat.cast_one, mul_one]
    exact timing_strobeTime (st := { st with hist := shiftHist a.ntaps.toNat st.hist y }) _ ha h
  · have hdue : st.outputDue = 0 := if_neg hzero
    rw [matchedFilter_skip a coef st y hzero]
    refine nextDph_sampleTime (st' := { st with hist := shiftHist a.ntaps.toNat st.hist y }) 0 ha hdph rfl ?_
    rw [hdue, Nat.cast_zero, mul_zero, mul_zero]
    exact le_refl _

/-- Over a block the samples pay for the symbols. -/
theorem runBlock_sampleTime {a : Active} (coef : Memory) {st : Sync} (xs : List Cplx) (ha : a.Legal)
    (h : st.Sound a) :
    st.sampleTime a + 62 * a.decim.toNat * a.vMax * (runBlock a coef st xs).2.length ≤
      (runBlock a coef st xs).1.sampleTime a + Config.oneT * xs.length := by
  induction xs generalizing st with
  | nil => simp
  | cons x xs ih =>
    have ⟨hrange, _⟩ := h
    have hsample : st.sampleTime a + 62 * a.decim.toNat * a.vMax * (runSample a coef st x).2.length ≤
        (runSample a coef st x).1.sampleTime a + Config.oneT :=
      matchedFilter_sampleTime (st := (agc st x).1) coef _ ha hrange
    rw [runBlock_cons]
    simp only [List.length_append, List.length_cons]
    push_cast
    linear_combination hsample + ih (runSample_sound coef x ha h)

/-- Step (3) of R178: the ranges bound the sample time. -/
theorem Sync.sampleTime_range {a : Active} {st : Sync} (ha : a.Legal) (h : st.InRange a) :
    0 ≤ st.sampleTime a ∧
      st.sampleTime a ≤ 64 * a.decim.toNat * a.vMax + Config.oneT * (a.decim.toNat - 1) := by
  have ⟨hdph, _⟩ := h
  obtain ⟨hpos, hle⟩ := Sync.strobeTime_range ha h
  have hsamples : (st.samplesToOutput a : Int) ≤ a.decim.toNat - 1 := by
    have := Sync.samplesToOutput_lt hdph
    omega
  have hdecim := Int.natCast_nonneg a.decim.toNat
  unfold Sync.sampleTime
  constructor
  · positivity
  · have hle' := mul_le_mul_of_nonneg_left hle hdecim
    linear_combination hle' + (Config.oneT : Int) * hsamples

/-- Steps (5) and (6) of R178, from the ranges before and after the block. -/
theorem runBlock_length_le {a : Active} (coef : Memory) {st : Sync} (xs : List Cplx) (ha : a.Legal) (h : st.Sound a) :
    (runBlock a coef st xs).2.length ≤ 32 * xs.length / (31 * a.k.toNat) + 2 := by
  have ⟨hrange, _⟩ := h
  have ⟨hrange', _⟩ := runBlock_sound coef xs ha h
  have hblock := runBlock_sampleTime coef xs ha h
  obtain ⟨hstart, -⟩ := Sync.sampleTime_range ha hrange
  obtain ⟨-, hend⟩ := Sync.sampleTime_range ha hrange'
  obtain ⟨hdecim, -⟩ := ha.decim_range
  obtain ⟨-, hvMax, hk2, -⟩ := ha.step_eq
  have hk := ha.k_eq
  generalize (runBlock a coef st xs).2.length = n at hblock ⊢
  have hdk : a.decim.toNat * 2 ≤ a.k.toNat := hk ▸ Nat.mul_le_mul_left _ hk2
  have hsum : 62 * (a.k.toNat : Int) * n ≤ 64 * xs.length + 64 * a.k.toNat + 64 * (a.decim.toNat - 1) := by
    rw [hk]
    rw [hvMax] at hblock hend
    push_cast at hblock hend ⊢
    linarith only [hblock, hend, hstart]
  rw [← Nat.sub_le_iff_le_add, Nat.le_div_iff_mul_le (by omega), Nat.sub_mul]
  have hprod : n * (31 * a.k.toNat) ≤ 32 * xs.length + 2 * (31 * a.k.toNat) := by
    zify
    linarith
  omega

/-- Settles O32: the invariant gives the ranges at the start of the block. -/
theorem blockEmitsFewerSymbolsThanItsBound : Obligations.BlockEmitsFewerSymbolsThanItsBound := by
  intro s n hinv hcreated
  obtain ⟨hinst, hgain, hhist, -⟩ := hinv
  obtain ⟨hlegal, hrange⟩ := hinst hcreated
  have hbound := runBlock_length_le s.coefMem (blockSamples s n) hlegal ⟨hrange, hgain, hhist⟩
  rwa [blockSamples_length] at hbound

end Sys2Proof.Machine
end

section
/-!
PROOFS, EXEC. The capacity check, the empty block, and the state, the symbols and the counts of a block that passes
(`41_exec.md` R170 to R173, R176 (a)).
-/

namespace Sys2Proof.Machine

/-- R111, R114: the word of EXEC as a number. -/
theorem encode_exec (imm : Half) : encode (.exec imm) = BitVec.ofNat 32 (0x50000000 + imm.toNat) := by
  simpa using encode_exec_ofNat (Nat.le_of_lt_succ imm.isLt)

/-- R176 (a): an empty block needs room for three symbols whatever the configuration. -/
theorem capReq_zero (k : Nat) : capReq 0 k = 3 := by
  rw [capReq, Nat.mul_zero, Nat.zero_div]

/-- Settles O29: the two answers of EXEC while `CREATED` is 1, and the values of R172. -/
theorem execChecksTheCapacityFirst : Obligations.ExecChecksTheCapacityFirst := by
  refine ⟨?_, by decide⟩
  intro s imm hcreated need
  refine ⟨fun hcap => ?refused, fun hcap => ?passed⟩
  case refused => exact exec_of_fails_errs (.execCapacity hcreated hcap) (encode_exec imm)
  case passed => exact ⟨_, _, exec_of_succeeds (.exec ⟨hcreated, hcap⟩), rfl, rfl⟩

/-- Settles O31: the block loop runs over no samples and stores no symbols. -/
theorem execOfAnEmptyBlockChangesOnlyOutlen : Obligations.ExecOfAnEmptyBlockChangesOnlyOutlen := by
  intro s hcreated hcap
  have hpasses : s.execPasses (0 : Half).toNat := ⟨hcreated, (capReq_zero s.act.k.toNat).symm ▸ hcap⟩
  exact exec_of_succeeds (.exec hpasses)

/-! ## `SYMCNT` counts the symbols (R55) -/

theorem strobe_symcnt (a : Active) (st : Sync) (y : Cplx) :
    (strobe a st y).1.symcnt = st.symcnt + BitVec.ofNat 32 (strobe a st y).2.length := by
  cases h : st.half with
  | false =>
    rw [strobe_onTime a st y h]
    rfl
  | true =>
    rw [strobe_mid a st y h]
    exact (BitVec.add_zero _).symm

theorem strobeLoop_symcnt (a : Active) (n : Nat) (st : Sync) :
    (strobeLoop a n st).1.symcnt = st.symcnt + BitVec.ofNat 32 (strobeLoop a n st).2.length := by
  induction n generalizing st with
  | zero => exact (BitVec.add_zero _).symm
  | succ n ih =>
    by_cases htau : st.tau.toNat < Config.oneT
    · have hpass : (strobePass a st).1.symcnt = st.symcnt + BitVec.ofNat 32 (strobePass a st).2.length :=
        strobe_symcnt a st _
      rw [strobeLoop_succ_of_lt a n st htau, List.length_append, BitVec.ofNat_add, ← BitVec.add_assoc, ← hpass]
      exact ih _
    · rw [strobeLoop_of_ge a (n + 1) st (Nat.le_of_not_lt htau)]
      exact (BitVec.add_zero _).symm

theorem matchedFilter_symcnt (a : Active) (coef : Memory) (st : Sync) (y : Cplx) :
    (matchedFilter a coef st y).1.symcnt = st.symcnt + BitVec.ofNat 32 (matchedFilter a coef st y).2.length := by
  by_cases hdph : st.dph = 0
  · rw [matchedFilter_output a coef st y hdph]
    exact strobeLoop_symcnt a 2 (shiftWindow { st with hist := shiftHist a.ntaps.toNat st.hist y } _)
  · rw [matchedFilter_skip a coef st y hdph]
    exact (BitVec.add_zero _).symm

theorem runBlock_symcnt (a : Active) (coef : Memory) (st : Sync) (xs : List Cplx) :
    (runBlock a coef st xs).1.symcnt = st.symcnt + BitVec.ofNat 32 (runBlock a coef st xs).2.length := by
  induction xs generalizing st with
  | nil => exact (BitVec.add_zero _).symm
  | cons x xs ih =>
    have hsample : (runSample a coef st x).1.symcnt = st.symcnt + BitVec.ofNat 32 (runSample a coef st x).2.length :=
      matchedFilter_symcnt a coef (agc st x).1 (agc st x).2
    rw [runBlock_cons, List.length_append, BitVec.ofNat_add, ← BitVec.add_assoc, ← hsample]
    exact ih _

/-! ## A block that passes its tests -/

section passes
variable {s : State} {n : Nat} (hinv : s.Inv) (hpasses : s.execPasses n)
include hinv hpasses

/-- R172, R178: the capacity check leaves room for every symbol. -/
theorem blockResult_length_lt_outCap : (blockResult s n).2.length < s.cfg.outCap.toNat := by
  obtain ⟨hcreated, hcap⟩ := hpasses
  have hbound := blockEmitsFewerSymbolsThanItsBound s n hinv hcreated
  exact (Nat.lt_succ_of_le hbound).trans_le hcap

/-- R55: the register OUTLEN holds the number of symbols whole. -/
theorem afterBlock_outLen_toNat : (s.afterBlock n).outLen.toNat = (blockResult s n).2.length := by
  have hlt := (blockResult_length_lt_outCap hinv hpasses).trans s.cfg.outCap.isLt
  rw [State.afterBlock_outLen, BitVec.toNat_ofNat, Nat.mod_eq_of_lt hlt]

/-- R116: the data of the response holds it whole. -/
theorem blockResponse_toNat : (BitVec.ofNat 32 (blockResult s n).2.length).toNat = (blockResult s n).2.length := by
  have hlt := (blockResult_length_lt_outCap hinv hpasses).trans s.cfg.outCap.isLt
  rw [BitVec.toNat_ofNat, Nat.mod_eq_of_lt (hlt.trans (by decide))]

end passes

/-- Settles O30: the symbols are those of `blockResult`, few enough for OUT_CAP, and stand where `storeSymbols` puts
them. -/
theorem execWritesTheSymbolsOfItsBlock : Obligations.ExecWritesTheSymbolsOfItsBlock := by
  intro s imm hinv hpasses
  have hlt := blockResult_length_lt_outCap hinv hpasses
  have hle : (blockResult s imm.toNat).2.length ≤ 65536 := (hlt.trans s.cfg.outCap.isLt).le
  obtain ⟨-, -, hout⟩ := memoriesWf_of_inv hinv
  refine ⟨_, _, _, rfl, exec_of_succeeds (.exec hpasses), rfl, afterBlock_outLen_toNat hinv hpasses, hlt.le,
    runBlock_symcnt _ _ _ _, fun j r hj => ?_, fun x hx => ?_⟩
  · have hword := storeSymbols_readWord s.outMem s.cfg.outBase 0 _ j r (Memory.wf_rising hout) hle hj
    rwa [Nat.zero_add] at hword
  · refine storeSymbols_readByte_ne s.outMem s.cfg.outBase 0 _ x fun j hj => ?_
    rw [Nat.zero_add]
    exact hx j hj

end Sys2Proof.Machine
end

section
/-!
PROOFS, streaming. The block loop is a fold over the samples, and the addresses of IN and OUT wrap, so a block may be
cut in two (`41_exec.md` R177).
-/

namespace Sys2Proof.Machine

/-- R85: the samples from a later base are the later samples. -/
theorem sampleAt_add_base (inp : Memory) (base k : Half) (i : Nat) :
    sampleAt inp (base + k) i = sampleAt inp base (k.toNat + i) := by
  rw [sampleAt, sampleAt, BitVec.toNat_add, Nat.mod_add_mod, Nat.add_assoc]

/-- R85: the symbols stored from a later base are stored as the later symbols. -/
theorem storeSymbols_add_base (m : Memory) (base k : Half) (n : Nat) (l : List Cplx) :
    storeSymbols m (base + k) n l = storeSymbols m base (k.toNat + n) l := by
  induction l generalizing m n with
  | nil => rfl
  | cons c t ih =>
    rw [storeSymbols, storeSymbols, BitVec.toNat_add, Nat.mod_add_mod, Nat.add_assoc]
    exact ih _ _

/-- The state from which the second block of R177 runs: after an EXEC of `n` samples, with both buffers moved on. -/
def State.continued (s : State) (n : Half) : State :=
  { (s.afterBlock n.toNat).respond (BitVec.ofNat 32 (blockResult s n.toNat).2.length) with
    cfg := { s.cfg with
      inBase := s.cfg.inBase + n
      outBase := s.cfg.outBase + (s.afterBlock n.toNat).outLen } }

section continued
variable (s : State) (n : Half)
@[simp] theorem State.continued_act : (s.continued n).act = s.act := rfl
@[simp] theorem State.continued_created : (s.continued n).created = s.created := rfl
@[simp] theorem State.continued_errs : (s.continued n).errs = s.errs := rfl
@[simp] theorem State.continued_coefMem : (s.continued n).coefMem = s.coefMem := rfl
@[simp] theorem State.continued_inMem : (s.continued n).inMem = s.inMem := rfl
@[simp] theorem State.continued_pending : (s.continued n).pending = s.pending := rfl
@[simp] theorem State.continued_hostReads : (s.continued n).hostReads = s.hostReads := rfl
end continued

theorem blockSamples_continued (s : State) (n : Half) (m : Nat) :
    blockSamples s (n.toNat + m) = blockSamples s n.toNat ++ blockSamples (s.continued n) m := by
  have htail : blockSamples (s.continued n) m =
      (List.range m).map fun i => sampleAt s.inMem s.cfg.inBase (n.toNat + i) :=
    List.map_congr_left fun i _ => sampleAt_add_base s.inMem s.cfg.inBase n i
  rw [htail, blockSamples, List.range_add, List.map_append, List.map_map]
  rfl

/-- R177: the second block goes on where the first one ended. -/
theorem blockResult_continued (s : State) (n : Half) (m : Nat) :
    blockResult s (n.toNat + m) =
      ((blockResult (s.continued n) m).1, (blockResult s n.toNat).2 ++ (blockResult (s.continued n) m).2) := by
  rw [blockResult, blockSamples_continued, runBlock_append]
  rfl

section continued
variable {s : State} {n : Half} (hinv : s.Inv) (hpasses : s.execPasses n.toNat)
include hinv hpasses

theorem continued_inv : (s.continued n).Inv := afterBlock_inv (n := n.toNat) hpasses.1 hinv

/-- R177: its symbols go behind those of the first, so OUT is as after one block of all the samples. -/
theorem blockOut_continued (m : Nat) :
    blockOut (s.continued n) (blockResult (s.continued n) m).2 = blockOut s (blockResult s (n.toNat + m)).2 := by
  have hlen := afterBlock_outLen_toNat hinv hpasses
  rw [blockResult_continued, blockOut, blockOut, storeSymbols_append, Nat.zero_add, ← hlen]
  exact storeSymbols_add_base _ _ _ 0 _

/-- R177: the state of one block of all the samples but for the staged configuration, OUTLEN and the responses. -/
theorem afterBlock_continued (m : Nat) :
    (s.continued n).afterBlock m = { s.afterBlock (n.toNat + m) with
      cfg := (s.continued n).cfg
      outLen := ((s.continued n).afterBlock m).outLen
      responses := (s.continued n).responses } := by
  have hsync : (blockResult (s.continued n) m).1 = (blockResult s (n.toNat + m)).1 := by
    rw [blockResult_continued]
  simp only [State.afterBlock, hsync, blockOut_continued hinv hpasses, State.continued_act, State.continued_created,
    State.continued_errs, State.continued_coefMem, State.continued_inMem, State.continued_pending,
    State.continued_hostReads]

end continued

/-- An EXEC that passes its tests, as an inversion. -/
theorem eq_of_exec_passes {s t : State} {n : Half} (hpasses : s.execPasses n.toNat)
    (hexec : exec (.exec n) s = .next t) :
    t = (s.afterBlock n.toNat).respond (BitVec.ofNat 32 (blockResult s n.toNat).2.length) :=
  (Host.Outcome.next.inj ((exec_of_succeeds (.exec hpasses)).symm.trans hexec)).symm

/-- Settles O33: the second EXEC runs from `continued`, and the counts are the lengths of the two parts of the
symbols. -/
theorem splitBlocksGiveWhatOneBlockGives : Obligations.SplitBlocksGiveWhatOneBlockGives := by
  intro s t1 t2 u n1 n2 n hinv hn hpasses1 hpasses2 hpasses hexec1 hexec2 hexec
  obtain rfl := eq_of_exec_passes hpasses1 hexec1
  obtain rfl := eq_of_exec_passes hpasses hexec
  have hcontinued : (s.continued n1).execPasses n2.toNat := hpasses2
  obtain rfl : t2 = _ := eq_of_exec_passes hcontinued hexec2
  have hinv' := continued_inv hinv hpasses1
  have htotal : (blockResult s n1.toNat).2.length + (blockResult (s.continued n1) n2.toNat).2.length =
      (blockResult s n.toNat).2.length := by
    rw [hn, blockResult_continued, List.length_append]
  have hlen1 := afterBlock_outLen_toNat hinv hpasses1
  have hlen2 := afterBlock_outLen_toNat hinv' hcontinued
  have hlen := afterBlock_outLen_toNat hinv hpasses
  refine ⟨?state, ?total, _, _, _, rfl, rfl, rfl, ?_, ?_, ?_⟩
  case state =>
    rw [afterBlock_continued hinv hpasses1, ← hn]
    rfl
  case total => exact (congrArg₂ (· + ·) hlen1 hlen2).trans (htotal.trans hlen.symm)
  · exact (blockResponse_toNat hinv hpasses1).trans hlen1.symm
  · exact (blockResponse_toNat hinv' hcontinued).trans hlen2.symm
  · exact (blockResponse_toNat hinv hpasses).trans hlen.symm

end Sys2Proof.Machine
end

section
/-!
PROOFS, the first symbol after a CREATE. The window of the resampler is empty but for the newest MF output, which does
not enter the interpolant at `mu` = 0 (`41_exec.md` R176 (e), `43_timing.md` R213).
-/

namespace Sys2Proof.Machine

/-- R204, R210: at `mu` = 0 the interpolant is `W1`. -/
theorem farrowF_mu_zero (w0 w1 w2 w3 : Int) : farrowF w0 w1 w2 w3 0 = sat16 w1 := by
  simp [farrowF, shl, asr]

theorem farrow_zero {st : Sync} (h : st.w1 = Cplx.zero) : farrow st 0 = ⟨0, 0⟩ := by
  rw [farrow, farrowF_mu_zero, farrowF_mu_zero, h]
  rfl

/-- R222: a zero derotated by any phase is zero. -/
theorem derotate_zero (cs : Int × Int) : derotate ⟨0, 0⟩ cs = ⟨0, 0⟩ := by
  simp only [derotate, sext16_zero, zero_mul, add_zero, sub_zero]
  rfl

/-- An on-time strobe that is due with `TAU` = 0 and an empty `W1` gives the symbol (0, 0). -/
theorem strobePass_zero (a : Active) {st : Sync} (hhalf : st.half = false) (htau : st.tau = 0)
    (hw1 : st.w1 = Cplx.zero) : (strobePass a st).2 = [⟨0, 0⟩] := by
  have hmu : muOf st.tau = 0 := htau ▸ rfl
  rw [strobePass_snd, hmu, farrow_zero hw1, strobe_onTime a st _ hhalf, carrierSymbol, derotate_zero]

theorem timing_head_zero (a : Active) {st : Sync} (z : Cplx) (hhalf : st.half = false) (htau : st.tau = 0)
    (hw2 : st.w2 = Cplx.zero) : (timing a st z).2.head? = some ⟨0, 0⟩ := by
  have hlt : (shiftWindow st z).tau.toNat < Config.oneT := by
    change st.tau.toNat < _
    rw [htau]
    decide
  rw [timing_snd, strobeLoop_succ_of_lt a 1 _ hlt, strobePass_zero a (st := shiftWindow st z) hhalf htau hw2]
  rfl

theorem runSample_initial_head (a : Active) (coef : Memory) (x : Cplx) :
    (runSample a coef Sync.initial x).2.head? = some ⟨0, 0⟩ := by
  change (matchedFilter a coef (agc Sync.initial x).1 _).2.head? = _
  have hdph : (agc Sync.initial x).1.dph = 0 := rfl
  rw [matchedFilter_output a coef _ _ hdph]
  have hhalf : Sync.initial.half = false := rfl
  have hw2 : Sync.initial.w2 = Cplx.zero := rfl
  have htau : Sync.initial.tau = 0 := rfl
  refine timing_head_zero a (st := { (agc Sync.initial x).1 with hist := _ }) _ hhalf htau hw2

/-- Settles O50: the first block after a CREATE starts from the initial synchronizer state. -/
theorem firstSymbolOfAnInstanceIsZero : Obligations.FirstSymbolOfAnInstanceIsZero := by
  intro s t n hexec hcause hn
  cases hexec.symm.trans (exec_of_succeeds (.create hcause))
  obtain ⟨m, rfl⟩ := Nat.exists_eq_add_of_le' hn
  rw [blockResult, blockSamples, List.range_succ_eq_map, List.map_cons, runBlock_cons, List.head?_append]
  rw [State.respond_sync, State.install_sync, runSample_initial_head]
  rfl

end Sys2Proof.Machine
end

section
/-!
PROOFS, the matched-filter decimator. The delay line entry by entry (`42_matched_filter.md` R191), the filter's exact
sum and its bound (R192), and the decimator's phase over a block (R193).
-/

namespace Sys2Proof.Machine

/-! ## The delay line -/

section delayLine
variable {l : Nat} {hist : List Cplx}

theorem histAt_cons_succ (y : Cplx) (j : Nat) : histAt (y :: hist) (j + 1) = histAt hist j := rfl

/-- R191: an entry inside the delay line moves one place on. -/
theorem histAt_shiftHist_of_lt (y : Cplx) {j : Nat} (hle : l ≤ hist.length) (hj : j + 1 < l) :
    histAt (shiftHist l hist y) (j + 1) = histAt hist j := by
  have hkept : j < (hist.take (l - 1)).length := by rw [List.length_take]; omega
  rw [shiftHist, histAt_cons_succ, histAt, List.getD_append _ _ _ _ hkept]
  simp only [histAt, List.getD_eq_getElem?_getD, List.getElem?_take_of_lt (Nat.lt_sub_of_add_lt hj)]

/-- R191: an entry beyond the delay line stays where it is. -/
theorem histAt_shiftHist_of_ge (y : Cplx) {j : Nat} (hpos : 1 ≤ l) (hle : l ≤ hist.length) (hj : l ≤ j) :
    histAt (shiftHist l hist y) j = histAt hist j := by
  obtain ⟨i, rfl⟩ := Nat.exists_eq_add_of_le' (hpos.trans hj)
  have hkept : (hist.take (l - 1)).length = l - 1 := by rw [List.length_take]; omega
  have hplace : l + (i - (l - 1)) = i + 1 := by omega
  rw [shiftHist, histAt_cons_succ, histAt, List.getD_append_right _ _ _ _ (by omega), hkept]
  simp only [histAt, List.getD_eq_getElem?_getD, List.getElem?_drop, hplace]

end delayLine

/-- Settles O38, entry by entry. -/
theorem delayLineShiftsByOneSample : Obligations.DelayLineShiftsByOneSample := by
  intro l hist y hpos hle
  refine ⟨shiftHist_length l hist y hpos hle, rfl, fun j hj hlt => ?inside, fun j hj => ?beyond⟩
  case inside =>
    obtain ⟨i, rfl⟩ := Nat.exists_eq_add_of_le' hj
    exact histAt_shiftHist_of_lt y hle hlt
  case beyond => exact histAt_shiftHist_of_ge y hpos hle hj

/-! ## The filter -/

/-- R192: with up to 512 taps COEF is read at the tap's own index. -/
theorem firSum_eq (coef : Memory) (part : Cplx → Half) {l : Nat} (hist : List Cplx) (hl : l ≤ 512) :
    firSum coef part l hist =
      ((List.range l).map fun j => sext16 (coef.readHalf j) * sext16 (part (histAt hist j))).sum := by
  refine congrArg List.sum (List.map_congr_left fun j hj => ?_)
  rw [tapAt, Nat.mod_eq_of_lt ((List.mem_range.mp hj).trans_le hl)]

/-- The product of two 16-bit values, largest at the square of the most negative one. -/
theorem abs_sext16_mul_le (g h : Half) : |sext16 g * sext16 h| ≤ 2 ^ 30 := by
  have abs_le_max (v : Half) : |sext16 v| ≤ 2 ^ 15 := abs_le.mpr ⟨sext16_ge v, (sext16_le v).trans (by decide)⟩
  calc |sext16 g * sext16 h| = |sext16 g| * |sext16 h| := abs_mul _ _
    _ ≤ 2 ^ 15 * 2 ^ 15 := mul_le_mul (abs_le_max g) (abs_le_max h) (abs_nonneg _) (by decide)

/-- R192: each tap adds at most 2^30 to the magnitude of the sum. -/
theorem abs_firSum_le (coef : Memory) (part : Cplx → Half) (l : Nat) (hist : List Cplx) :
    |firSum coef part l hist| ≤ l * 2 ^ 30 := by
  induction l with
  | zero => simp [firSum]
  | succ l ih =>
    have htap : |tapAt coef l * sext16 (part (histAt hist l))| ≤ 2 ^ 30 := abs_sext16_mul_le _ _
    have hsum : firSum coef part (l + 1) hist =
        firSum coef part l hist + tapAt coef l * sext16 (part (histAt hist l)) := List.sum_range_succ _ _
    rw [hsum]
    push_cast
    linarith only [abs_add_le (firSum coef part l hist) (tapAt coef l * sext16 (part (histAt hist l))), htap, ih]

theorem sat16_eq_max_min (v : Int) : sat16 v = max (-32768) (min 32767 v) := clamp_eq_max_min _ _ _ (by decide)

/-- Settles O39: the two sums are `firSum`'s, and `satCplx` stores each component's saturated floor. -/
theorem filterSumIsExactAndBounded : Obligations.FilterSumIsExactAndBounded := by
  intro coef l hist hl accr acci
  have hre : firSum coef Cplx.re l hist = accr := firSum_eq coef Cplx.re hist (by omega)
  have him : firSum coef Cplx.im l hist = acci := firSum_eq coef Cplx.im hist (by omega)
  have bound (part : Cplx → Half) : |firSum coef part l hist| ≤ 511 * 2 ^ 30 :=
    (abs_firSum_le coef part l hist).trans (by omega)
  rw [← hre, ← him, ← sat16_eq_max_min, ← sat16_eq_max_min]
  exact ⟨bound Cplx.re, bound Cplx.im, satCplx_re _ _, satCplx_im _ _⟩

/-! ## The decimator's phase -/

/-- R193: `D` fits in eight bits, so `DPH` is stored whole. -/
theorem nextDph_toNat_eq_mod (a : Active) (dph : BitVec 8) (hpos : 0 < a.decim.toNat) (hle : a.decim.toNat ≤ 255) :
    (nextDph a dph).toNat = (dph.toNat + 1) % a.decim.toNat := by
  have hlt := Nat.mod_lt (dph.toNat + 1) hpos
  rw [nextDph, BitVec.toNat_ofNat, Nat.mod_eq_of_lt (by omega)]

/-- R193: each sample of a block advances `DPH` by one. -/
theorem runBlock_dph {a : Active} (coef : Memory) {st : Sync} (xs : List Cplx) (hdph : st.dph.toNat < a.decim.toNat)
    (hle : a.decim.toNat ≤ 255) :
    (runBlock a coef st xs).1.dph.toNat = (st.dph.toNat + xs.length) % a.decim.toNat := by
  have hpos : 0 < a.decim.toNat := Nat.zero_lt_of_lt hdph
  induction xs generalizing st with
  | nil => exact (Nat.mod_eq_of_lt hdph).symm
  | cons x xs ih =>
    have hnext : (runSample a coef st x).1.dph.toNat = (st.dph.toNat + 1) % a.decim.toNat := by
      rw [runSample_dph, nextDph_toNat_eq_mod a _ hpos hle]
    rw [runBlock_cons, ih (hnext ▸ Nat.mod_lt _ hpos), hnext, Nat.mod_add_mod, List.length_cons]
    congr 1
    omega

/-- The synchronizer after AGC and the shift of the delay line, as the timing stage is handed it (R173, R191). -/
def Sync.shifted (a : Active) (st : Sync) (x : Cplx) : Sync :=
  { st with gain := (agc st x).1.gain, hist := shiftHist a.ntaps.toNat st.hist (agc st x).2 }

section sample
variable (a : Active) (coef : Memory) {st : Sync} (x : Cplx)

/-- R193: a sample that gives no MF output. -/
theorem runSample_skip (h : st.dph ≠ 0) :
    runSample a coef st x = ({ st.shifted a x with dph := nextDph a st.dph }, []) :=
  matchedFilter_skip a coef (agc st x).1 (agc st x).2 h

/-- R191: a sample that gives an MF output. TIMING leaves `DPH` at 0, so it is advanced from there. -/
theorem runSample_output (h : st.dph = 0) :
    runSample a coef st x =
      ({ (timing a (st.shifted a x) (fir coef a.ntaps.toNat (st.shifted a x).hist)).1 with dph := nextDph a 0 },
        (timing a (st.shifted a x) (fir coef a.ntaps.toNat (st.shifted a x).hist)).2) := by
  obtain ⟨-, hdph, -⟩ := timing_frame a (st.shifted a x) (fir coef a.ntaps.toNat (st.shifted a x).hist)
  have hzero : (st.shifted a x).dph = 0 := h
  rw [← hzero, ← hdph]
  exact matchedFilter_output a coef (agc st x).1 (agc st x).2 h

end sample

/-- Settles O40: the phase over a block, then the two cases of MF(). -/
theorem decimatorKeepsItsPhase : Obligations.DecimatorKeepsItsPhase := by
  refine ⟨fun a coef st xs => runBlock_dph coef xs, fun a coef st x h => ?skip, fun a coef st x h => ?output⟩
  case skip =>
    rw [runSample_skip a coef x h]
    exact ⟨rfl, rfl⟩
  case output =>
    rw [runSample_output a coef x h]
    exact ⟨rfl, rfl⟩

end Sys2Proof.Machine
end

section
/-!
PROOFS, the strobe loop ends. A loop that has brought `TAU` to `ONE_T` stays where it is however many passes it is
allowed, and strobes alternate, so two passes emit at most one symbol (`43_timing.md` R203, R205, R211).
-/

namespace Sys2Proof.Machine

/-- R203: once `m` passes have brought `TAU` to `ONE_T`, leave for more changes nothing. -/
theorem strobeLoop_add_of_ge (a : Active) (m n : Nat) {st : Sync}
    (h : Config.oneT ≤ (strobeLoop a m st).1.tau.toNat) : strobeLoop a (m + n) st = strobeLoop a m st := by
  induction m generalizing st with
  | zero => exact strobeLoop_of_ge a (0 + n) st h
  | succ m ih =>
    rw [Nat.succ_add]
    by_cases hlt : st.tau.toNat < Config.oneT
    · rw [strobeLoop_succ_of_lt a m st hlt] at h ⊢
      rw [strobeLoop_succ_of_lt a (m + n) st hlt, ih h]
    · have hge := Nat.le_of_not_lt hlt
      rw [strobeLoop_of_ge a (m + n + 1) st hge, strobeLoop_of_ge a (m + 1) st hge]

/-- R203, R211: from `K2` = 3 on one smallest step is at least `ONE_T`, so one pass ends the loop. -/
theorem le_strobeLoop_one_tau {a : Active} {st : Sync} (ha : a.Legal) (h : st.LoopInRange a) (hk2 : 3 ≤ a.k2) :
    Config.oneT ≤ (strobeLoop a 1 st).1.tau.toNat := by
  obtain ⟨hstep, hvMax, -, -⟩ := ha.step_eq
  have hpos := zext_nonneg st.tau
  exact le_strobeLoop_tau 1 ha h (by push_cast; omega)

/-- R205: two passes make one symbol, with `HALF` telling which of the two is next. -/
theorem strobeLoop_halfCount (a : Active) (n : Nat) (st : Sync) :
    2 * ((strobeLoop a n st).2.length : Int) ≤ n - st.halfCount + (strobeLoop a n st).1.halfCount := by
  induction n generalizing st with
  | zero => simp [strobeLoop]
  | succ n ih =>
    by_cases hlt : st.tau.toNat < Config.oneT
    · have hpass : 2 * ((strobePass a st).2.length : Int) = 1 - st.halfCount + (strobePass a st).1.halfCount :=
        strobe_halfCount a st _
      rw [strobeLoop_succ_of_lt a n st hlt, List.length_append]
      push_cast
      linarith only [hpass, ih (strobePass a st).1]
    · rw [strobeLoop_of_ge a (n + 1) st (Nat.le_of_not_lt hlt), List.length_nil]
      push_cast
      omega

/-- R211: a call of TIMING emits at most one symbol. -/
theorem timing_length_le_one (a : Active) (st : Sync) (z : Cplx) : (timing a st z).2.length ≤ 1 := by
  have hcount := strobeLoop_halfCount a 2 (shiftWindow st z)
  obtain ⟨hbefore, -⟩ := (shiftWindow st z).halfCount_range
  obtain ⟨-, hafter⟩ := (strobeLoop a 2 (shiftWindow st z)).1.halfCount_range
  rw [timing_snd]
  omega

/-- Settles O45: two smallest steps reach `ONE_T`, three of `K2` in one, and strobes alternate. -/
theorem strobeLoopEndsInTwoPasses : Obligations.StrobeLoopEndsInTwoPasses := by
  intro a st z ha h
  obtain ⟨-, -, hloop⟩ := (Sync.inRange_iff a st).mp h
  have htwo := le_strobeLoop_two_tau ha hloop
  exact ⟨fun n => strobeLoop_add_of_ge a 2 n htwo,
    fun hk2 n => strobeLoop_add_of_ge a 1 n (le_strobeLoop_one_tau ha hloop hk2),
    htwo, timing_length_le_one a st z, timing_inRange z ha h⟩

end Sys2Proof.Machine
end

section
/-!
PROOFS, the interpolant (`43_timing.md` R204, R210).
-/

namespace Sys2Proof.Machine

/-- R210 (c): on a linear ramp the cubic term is zero and the slope is the ramp's. -/
theorem farrowF_ramp (a d mu : Int) :
    farrowF a (a + d) (a + 2 * d) (a + 3 * d) mu = sat16 (a + d + d * mu / 32768) := by
  have hcubic : a + 3 * d - (a + 2 * d) - (a + d) + a = 0 := by ring
  have hslope : -(a + 3 * d) + 3 * (a + 2 * d) - (a + d) - a = 2 * d := by ring
  have hsum : (a + d) * 2 ^ 31 + (0 * mu + 2 * d * 2 ^ 15) * mu = ((a + d) * 2 ^ 15 + d * mu) * 2 ^ 16 := by ring
  simp only [farrowF, shl, asr, hcubic, hslope, hsum]
  congr 1
  omega

/-- Settles O41: a constant window is a ramp of slope 0. -/
theorem interpolatorReproducesRamps : Obligations.InterpolatorReproducesRamps := by
  have ramp (a d mu : Int) (hlo : -32768 ≤ a + d + d * mu / 32768) (hhi : a + d + d * mu / 32768 ≤ 32767) :
      farrowF a (a + d) (a + 2 * d) (a + 3 * d) mu = a + d + d * mu / 32768 :=
    (farrowF_ramp a d mu).trans (clamp_of_mem _ _ _ hlo hhi)
  refine ⟨fun w0 w1 w2 w3 mu => sat16_eq_max_min _, fun st mu => ⟨sext16_half16_sat16 _, sext16_half16_sat16 _⟩,
    fun w0 w1 w2 w3 hlo hhi => ?start, fun c mu hlo hhi => ?constant, ramp⟩
  case start => exact (farrowF_mu_zero w0 w1 w2 w3).trans (clamp_of_mem _ _ _ hlo hhi)
  case constant => simpa using ramp c 0 mu (by simpa using hlo) (by simpa using hhi)

end Sys2Proof.Machine
end

section
/-!
PROOFS, the two kinds of strobe (`43_timing.md` R205 to R208).
-/

namespace Sys2Proof.Machine

/-- Settles O42: CARRIER does not read `YON`, which ONTIME stores before the call. -/
theorem onTimeStrobeEmitsOneSymbol : Obligations.OnTimeStrobeEmitsOneSymbol := by
  intro a st y hhalf
  rw [strobe_onTime a st y hhalf, onTime_fst, carrier_spec, carrier_spec]
  exact ⟨rfl, rfl⟩

/-- R207: a product of the early-late error is a component times a difference of two. -/
theorem abs_sext16_mul_sub_le (g u v : Half) : |sext16 g * (sext16 u - sext16 v)| ≤ 2 ^ 31 - 2 ^ 15 := by
  have hg : |sext16 g| ≤ 2 ^ 15 := abs_le.mpr ⟨sext16_ge g, (sext16_le g).trans (by decide)⟩
  have hdiff : |sext16 u - sext16 v| ≤ 2 ^ 16 - 1 := by
    have hu := sext16_ge u
    have hu' := sext16_le u
    have hv := sext16_ge v
    have hv' := sext16_le v
    exact abs_le.mpr ⟨by omega, by omega⟩
  calc |sext16 g * (sext16 u - sext16 v)| = |sext16 g| * |sext16 u - sext16 v| := abs_mul _ _
    _ ≤ 2 ^ 15 * (2 ^ 16 - 1) := mul_le_mul hg hdiff (abs_nonneg _) (by decide)

theorem abs_timingError_le (st : Sync) (y : Cplx) : |timingError st y| ≤ 2 ^ 32 - 2 ^ 16 :=
  calc |timingError st y| ≤ |sext16 st.yon.re * (sext16 y.re - sext16 st.ymid.re)| +
        |sext16 st.yon.im * (sext16 y.im - sext16 st.ymid.im)| := abs_add_le _ _
    _ ≤ (2 ^ 31 - 2 ^ 15) + (2 ^ 31 - 2 ^ 15) :=
        add_le_add (abs_sext16_mul_sub_le _ _ _) (abs_sext16_mul_sub_le _ _ _)

/-- Settles O43: `mid_eq` gives the frame, the laws of the loop filter its two registers. -/
theorem midStrobeMovesTheTimingLoop : Obligations.MidStrobeMovesTheTimingLoop := by
  intro a st y hhalf e t vmax k2 bw
  obtain ⟨hlo, hhi⟩ := abs_le.mp (abs_timingError_le st y)
  have clamp_vMax (v : Int) : clamp v (-a.vMax) a.vMax = max (-vmax) (min vmax v) :=
    clamp_eq_max_min _ _ _ (neg_le_self (vMax_nonneg a))
  have hmid : t = mid a st y := by simp only [t, strobe_mid a st y hhalf]
  rw [hmid, strobe_mid a st y hhalf, mid_eq]
  exact ⟨rfl, hlo, hhi, rfl, (loopInt_toInt a st.tint e).trans (clamp_vMax _),
    (loopOut_toInt a (loopInt a st.tint e) e).trans (clamp_vMax _)⟩

end Sys2Proof.Machine
end

section
/-!
PROOFS, a pass of the strobe loop and a call of TIMING (`43_timing.md` R202, R203).
-/

namespace Sys2Proof.Machine

/-- R203: below `ONE_T` the interpolation point lies between `W1` and `W2`. -/
theorem muOf_range {tau : Word} (h : tau.toNat < Config.oneT) : 0 ≤ muOf tau ∧ muOf tau ≤ 32767 := by
  have hlt : tau.toNat < 2 ^ 24 := h
  unfold muOf asr zext
  omega

/-- R203: a pass adds the nominal step and its correction to `TAU`, without a wrap. -/
theorem strobePass_tau {a : Active} {st : Sync} (ha : a.Legal) (h : st.LoopInRange a)
    (htau : st.tau.toNat < Config.oneT) :
    zext (strobePass a st).1.tau = zext st.tau + zext a.stepNom + sext32 (strobePass a st).1.tv := by
  obtain ⟨hstep, hvMax, hk2, hk2'⟩ := ha.step_eq
  obtain ⟨-, -, -, -, -, -, -, htau', -⟩ := strobe_frame a st (farrow st (muOf st.tau))
  obtain ⟨-, -, htv, htv'⟩ := strobe_loopInRange (farrow st (muOf st.tau)) h
  have hpos := zext_nonneg st.tau
  have hlt : zext st.tau < 2 ^ 24 := Int.ofNat_lt.mpr htau
  rw [strobePass_fst, htau']
  exact zext_word32_of_mem _ (by omega) (by omega)

/-- R203: when the loop has ended, TIMING takes `ONE_T` from `TAU`. -/
theorem timing_tau (a : Active) {st : Sync} (z : Cplx)
    (h : Config.oneT ≤ (strobeLoop a 2 (shiftWindow st z)).1.tau.toNat) :
    (timing a st z).1.tau.toNat + 2 ^ 24 = (strobeLoop a 2 (shiftWindow st z)).1.tau.toNat := by
  have hge : 2 ^ 24 ≤ (strobeLoop a 2 (shiftWindow st z)).1.tau.toNat := h
  have hlt := (strobeLoop a 2 (shiftWindow st z)).1.tau.isLt
  have htau : zext (timing a st z).1.tau = zext (strobeLoop a 2 (shiftWindow st z)).1.tau - 2 ^ 24 := by
    rw [timing_fst]
    exact zext_word32_of_mem _ (by unfold zext; omega) (by unfold zext; omega)
  unfold zext at htau
  omega

/-- R202: the strobe loop leaves the shifted window as it is. -/
theorem timing_window (a : Active) (st : Sync) (z : Cplx) :
    (timing a st z).1.w0 = st.w1 ∧ (timing a st z).1.w1 = st.w2 ∧ (timing a st z).1.w2 = st.w3 ∧
    (timing a st z).1.w3 = z := by
  obtain ⟨-, -, -, hw0, hw1, hw2, hw3⟩ := strobeLoop_frame a 2 (shiftWindow st z)
  exact ⟨hw0, hw1, hw2, hw3⟩

/-- R203: with `TAU` at `ONE_T` or above on entry the loop makes no pass. -/
theorem timing_of_ge (a : Active) {st : Sync} (z : Cplx) (h : Config.oneT ≤ st.tau.toNat) :
    (timing a st z).2 = [] ∧
    (timing a st z).1 = { shiftWindow st z with tau := (timing a st z).1.tau } ∧
    (timing a st z).1.tau.toNat + 2 ^ 24 = st.tau.toNat := by
  have hloop : strobeLoop a 2 (shiftWindow st z) = (shiftWindow st z, []) := strobeLoop_of_ge a 2 _ h
  have htau := timing_tau a (st := st) z (by rw [hloop]; exact h)
  rw [hloop] at htau
  exact ⟨by rw [timing_snd, hloop], by rw [timing_fst, hloop], htau⟩

/-- Settles O44: a pass, the loop unrolled, and a call. -/
theorem strobePassSchedulesTheNextStrobe : Obligations.StrobePassSchedulesTheNextStrobe := by
  refine ⟨fun a st ha h htau => ?pass, fun a st n => ⟨strobeLoop_of_ge a n st, fun hlt => ?unroll⟩,
    fun a st z => ⟨timing_window a st z, rfl, rfl, fun ha h => ?call, timing_of_ge a z⟩⟩
  case pass =>
    obtain ⟨-, -, hloop⟩ := (Sync.inRange_iff a st).mp h
    obtain ⟨hmu, hmu'⟩ := muOf_range htau
    exact ⟨hmu, hmu', rfl, rfl, strobePass_tau ha hloop htau⟩
  case unroll =>
    rw [strobeLoop_succ_of_lt a n st hlt]
    exact ⟨rfl, rfl⟩
  case call =>
    obtain ⟨-, -, hloop⟩ := (Sync.inRange_iff a st).mp h
    exact timing_tau a z (le_strobeLoop_two_tau ha (st := shiftWindow st z) hloop)

end Sys2Proof.Machine
end

section
/-!
PROOFS, the sine table's circle (`44_carrier.md` R221, R226).
-/

namespace Sys2Proof.Machine

/-- R221: the quarter wave lies between 0 and the table's amplitude. -/
theorem sinq_range (i : Nat) : 0 ≤ sinq i ∧ sinq i ≤ 32767 := by
  have htable : ∀ v ∈ sinqTable, v ≤ 32767 := by decide +kernel
  refine ⟨Int.natCast_nonneg _, Int.ofNat_le.mpr ?_⟩
  by_cases hi : i < sinqTable.length
  · rw [List.getD_eq_getElem _ _ hi]
    exact htable _ (List.getElem_mem hi)
  · rw [List.getD_eq_default _ _ (Nat.le_of_not_lt hi)]
    decide

/-- R226: in each quadrant cosine and sine are values of the quarter wave up to sign. -/
theorem cosSin_range (idx : Nat) :
    -32767 ≤ (cosSin idx).1 ∧ (cosSin idx).1 ≤ 32767 ∧ -32767 ≤ (cosSin idx).2 ∧ (cosSin idx).2 ≤ 32767 := by
  obtain ⟨hup, hup'⟩ := sinq_range (idx % 256)
  obtain ⟨hdown, hdown'⟩ := sinq_range (256 - idx % 256)
  unfold cosSin
  split <;> dsimp only <;> omega

/-- Settles O48: the range holds of every index; the twelve values are read from the table. -/
theorem cosSinIsWithinItsAmplitude : Obligations.CosSinIsWithinItsAmplitude :=
  ⟨fun idx _ => cosSin_range idx, by decide⟩

end Sys2Proof.Machine
end

section
/-!
PROOFS, the phase detectors and the carrier loop (`44_carrier.md` R222 to R225).
-/

namespace Sys2Proof.Machine

/-! ## The phase detectors -/

theorem sgn_of_nonneg {v : Int} (h : 0 ≤ v) : sgn v = 1 := if_neg (by omega)

theorem sgn_of_neg {v : Int} (h : v < 0) : sgn v = -1 := if_pos h

theorem sgn_mul (u v : Int) : sgn u * v = if 0 ≤ u then v else -v := by
  by_cases h : 0 ≤ u
  · rw [if_pos h, sgn_of_nonneg h, one_mul]
  · rw [if_neg h, sgn_of_neg (by omega), neg_one_mul]

/-- R224: the QPSK detector compares the magnitudes of the two components, in the order that the quadrant gives. -/
theorem sgn_mul_sub_sgn_mul (u v : Int) :
    sgn u * v - sgn v * u = if (0 ≤ u ↔ 0 ≤ v) then |v| - |u| else |u| - |v| := by
  rcases le_or_gt 0 u with hu | hu <;> rcases le_or_gt 0 v with hv | hv
  · rw [if_pos (iff_of_true hu hv), abs_of_nonneg hu, abs_of_nonneg hv, sgn_of_nonneg hu, sgn_of_nonneg hv]
    ring
  · rw [if_neg (by omega), abs_of_nonneg hu, abs_of_neg hv, sgn_of_nonneg hu, sgn_of_neg hv]
    ring
  · rw [if_neg (by omega), abs_of_neg hu, abs_of_nonneg hv, sgn_of_neg hu, sgn_of_nonneg hv]
    ring
  · rw [if_pos (by omega), abs_of_neg hu, abs_of_neg hv, sgn_of_neg hu, sgn_of_neg hv]
    ring

theorem phaseDet_none (r : Cplx) : phaseDet 0 r = 0 := rfl

theorem phaseDet_bpsk (r : Cplx) : phaseDet 1 r = if 0 ≤ sext16 r.re then sext16 r.im else -sext16 r.im :=
  sgn_mul _ _

theorem phaseDet_qpsk (r : Cplx) :
    phaseDet 2 r = if (0 ≤ sext16 r.re ↔ 0 ≤ sext16 r.im) then |sext16 r.im| - |sext16 r.re|
      else |sext16 r.re| - |sext16 r.im| := sgn_mul_sub_sgn_mul _ _

/-- R224: no scheme's error exceeds the magnitude of a component. -/
theorem abs_phaseDet_le {m : Half} (h : m.toNat ≤ 2) (r : Cplx) : |phaseDet m r| ≤ 32768 := by
  have component (g : Half) : |sext16 g| ≤ 32768 := abs_le.mpr ⟨sext16_ge g, (sext16_le g).trans (by decide)⟩
  have hre := component r.re
  have him := component r.im
  have hm : m = 0 ∨ m = 1 ∨ m = 2 := by bv_omega
  rcases hm with rfl | rfl | rfl
  · rw [phaseDet_none]
    decide
  · rw [phaseDet_bpsk]
    split
    · exact him
    · rwa [abs_neg]
  · have hre0 := abs_nonneg (sext16 r.re)
    have him0 := abs_nonneg (sext16 r.im)
    rw [phaseDet_qpsk, abs_le]
    split <;> omega

/-- Settles O47: a row for each of the three codes, and their common bound. -/
theorem phaseDetectorStaysInItsRange : Obligations.PhaseDetectorStaysInItsRange :=
  fun r => ⟨phaseDet_none r, phaseDet_bpsk r, phaseDet_qpsk r, fun _ hm => abs_le.mp (abs_phaseDet_le hm r)⟩

/-! ## One call of CARRIER -/

/-- R225: `FREQ` as an integer, saturated. -/
theorem pllFreq_toInt (bw : Half) (freq : Word) (e : Int) :
    sext32 (pllFreq bw freq e) = sat32 (sext32 freq + asr (zext bw * zext bw * e) 18) := sext32_word32_sat32 _

theorem sat32_eq_max_min (v : Int) : sat32 v = max (-2 ^ 31) (min (2 ^ 31 - 1) v) :=
  clamp_eq_max_min _ _ _ (by decide)

/-- R225: `THETA` as an integer, modulo one turn. -/
theorem pllTheta_toNat (bw : Half) (theta newFreq : Word) (e : Int) :
    zext (pllTheta bw theta newFreq e) = (zext theta + sext32 newFreq + zext bw * e) % 2 ^ 32 := zext_word32 _

/-- Settles O46: `carrier_spec` gives the frame and the order of the two steps, the laws above each register. -/
theorem carrierDerotatesThenUpdates : Obligations.CarrierDerotatesThenUpdates := by
  intro a st y c s r e bw t
  refine ⟨?re, ?im, ?freq, pllTheta_toNat a.bw st.theta t.freq e, rfl⟩
  case re => exact (satCplx_re _ _).trans (sat16_eq_max_min _)
  case im => exact (satCplx_im _ _).trans (sat16_eq_max_min _)
  case freq => exact (pllFreq_toInt a.bw st.freq e).trans (sat32_eq_max_min _)

end Sys2Proof.Machine
end

section
/-!
PROOFS, the open carrier loop. Without a scheme there is no phase error, and with `FREQ` at 0 the loop then stands
still at every strobe, so over a block (`44_carrier.md` R224, R225).
-/

namespace Sys2Proof.Machine

/-- The carrier loop rests at the phase `theta`. -/
abbrev Sync.RestsAt (theta : Word) (st : Sync) : Prop := st.freq = 0 ∧ st.theta = theta

/-- R225: without error or frequency the loop adds nothing to either register. -/
theorem pllFreq_zero (bw : Half) : pllFreq bw 0 0 = 0 := by
  simp [pllFreq, asr, sext32, sat32, clamp, word32]

theorem pllTheta_zero (bw : Half) (theta : Word) : pllTheta bw theta 0 0 = theta := by
  simp [pllTheta, zext, sext32, word32]

section restsAt
variable {a : Active} {theta : Word} {st : Sync}

theorem carrier_restsAt (y : Cplx) (hmod : a.mod = 0) (h : st.RestsAt theta) : (carrier a st y).1.RestsAt theta := by
  obtain ⟨hfreq, htheta⟩ := h
  rw [carrier_spec, hmod, phaseDet_none, hfreq, htheta, pllFreq_zero, pllTheta_zero]
  exact ⟨rfl, rfl⟩

/-- Only an on-time strobe calls CARRIER (R206, R207). -/
theorem strobe_restsAt (y : Cplx) (hmod : a.mod = 0) (h : st.RestsAt theta) : (strobe a st y).1.RestsAt theta := by
  cases hhalf : st.half with
  | false =>
    rw [strobe_onTime a st y hhalf]
    exact carrier_restsAt (st := { st with yon := y }) y hmod h
  | true => rwa [strobe_mid a st y hhalf]

theorem strobeLoop_restsAt (n : Nat) (hmod : a.mod = 0) (h : st.RestsAt theta) :
    (strobeLoop a n st).1.RestsAt theta := by
  induction n generalizing st with
  | zero => exact h
  | succ n ih =>
    by_cases htau : st.tau.toNat < Config.oneT
    · rw [strobeLoop_succ_of_lt a n st htau]
      exact ih (st := (strobePass a st).1) (strobe_restsAt _ hmod h)
    · rwa [strobeLoop_of_ge a (n + 1) st (Nat.le_of_not_lt htau)]

/-- Of the steps of a sample only TIMING reaches the carrier loop. -/
theorem runSample_restsAt (coef : Memory) (x : Cplx) (hmod : a.mod = 0) (h : st.RestsAt theta) :
    (runSample a coef st x).1.RestsAt theta := by
  by_cases hdph : st.dph = 0
  · rw [runSample_output a coef x hdph]
    exact strobeLoop_restsAt 2 (st := shiftWindow (st.shifted a x) _) hmod h
  · rwa [runSample_skip a coef x hdph]

end restsAt

theorem blockResult_restsAt {s : State} {theta : Word} (n : Nat) (hmod : s.act.mod = 0) (h : s.sync.RestsAt theta) :
    (blockResult s n).1.RestsAt theta :=
  runBlock_invariant s.act s.coefMem (·.RestsAt theta)
    (fun _ x hst => runSample_restsAt s.coefMem x hmod hst) s.sync _ h

/-- Settles O49: an EXEC that fails keeps the synchronizer, one that succeeds leaves it as its block does. -/
theorem openLoopKeepsThePhase : Obligations.OpenLoopKeepsThePhase := by
  intro s t n hmod hfreq hexec
  have hrests : s.sync.RestsAt s.sync.theta := ⟨hfreq, rfl⟩
  rcases exec_cases hexec with ⟨e, info, -, rfl⟩ | ⟨u, data, hsucc, rfl⟩
  · exact hrests
  · cases hsucc with
    | exec _ => exact blockResult_restsAt n.toNat hmod hrests

end Sys2Proof.Machine
end

section
/-!
PROOFS, the exceptions (`60_exceptions.md`). What a command's response says about how it ended, so which errors are
its own (R247, R249) and what an error changes (R244, R245); and that SYNC1 answers every move of the host (R246, R267).
-/

namespace Sys2Proof.Machine

/-- `exec_cases` with the response in hand: it tells the error and its info value, or carries the data of a success. -/
theorem exec_response_cases {i : Instr} {s t : State} {r : Response} (hexec : exec i s = .next t)
    (hresp : t.responses = s.responses ++ [r]) :
    (∃ e info, Fails i s e info ∧ t = s.fail e info i ∧ r = ⟨e.code, info⟩) ∨
    (∃ u data, Succeeds i s u data ∧ t = u.respond data ∧ r = ⟨0, data⟩) := by
  rcases exec_cases hexec with ⟨e, info, hfails, rfl⟩ | ⟨u, data, hsucc, rfl⟩
  · have hr : r = ⟨e.code, info⟩ := by simpa using hresp.symm
    exact .inl ⟨e, info, hfails, rfl, hr⟩
  · have hr : r = ⟨0, data⟩ := by simpa [hsucc.hostLists_eq] using hresp.symm
    exact .inr ⟨u, data, hsucc, rfl, hr⟩

/-- R247: no other command ends with NotCreated. -/
theorem Fails.opcode_of_notCreated {i : Instr} {s : State} {info : Word} (h : Fails i s .notCreated info) :
    i.opcode = .setbw ∨ i.opcode = .exec ∨ i.opcode = .destroy := by
  cases h with
  | setbwNotCreated _ => exact .inl rfl
  | execNotCreated _ => exact .inr (.inl rfl)
  | destroyNotCreated _ => exact .inr (.inr rfl)

/-- R247: without an instance each of the three commands fails in its first test. -/
theorem fails_notCreated {i : Instr} {s : State} (hcreated : s.created = false)
    (hop : i.opcode = .setbw ∨ i.opcode = .exec ∨ i.opcode = .destroy) : Fails i s .notCreated 0 := by
  cases i with
  | setbw imm => exact .setbwNotCreated hcreated
  | exec imm => exact .execNotCreated hcreated
  | destroy => exact .destroyNotCreated hcreated
  | nop | wrcsr _ _ | rdcsr _ | create | reset => simp [Instr.opcode] at hop

/-- R240: the code 4 is NotCreated's alone. -/
theorem ErrorKind.code_eq_four_iff {e : ErrorKind} : e.code = 4 ↔ e = .notCreated := by
  cases e <;> decide

/-- Settles O23: the case of `Fails` for each of the three commands; an answer of any other command is a success or
an error of another code. -/
theorem notCreatedIsRaisedByThreeCommands : Obligations.NotCreatedIsRaisedByThreeCommands := by
  refine ⟨fun i s hop hcreated => exec_of_fails_errs (fails_notCreated hcreated hop) rfl, ?others⟩
  intro i s t ⟨hsetbw, hexecOp, hdestroy⟩ hexec
  rcases exec_cases hexec with ⟨e, info, hfails, rfl⟩ | ⟨u, data, hsucc, rfl⟩
  · refine ⟨⟨e.code, info⟩, rfl, fun hcode => ?_⟩
    obtain rfl := ErrorKind.code_eq_four_iff.mp hcode
    rcases hfails.opcode_of_notCreated with hop | hop | hop
    exacts [hsetbw hop, hexecOp hop, hdestroy hop]
  · obtain ⟨hresponses, -⟩ := hsucc.hostLists_eq
    exact ⟨⟨0, data⟩, by rw [State.respond_responses, hresponses], ErrorKind.notCreated.code_ne_zero.symm⟩

/-- Settles O25: the cases of `Fails` are R249's table. -/
theorem eachCommandRaisesOnlyItsErrors : Obligations.EachCommandRaisesOnlyItsErrors := by
  intro i s t r hexec hresp
  rcases exec_response_cases hexec hresp with ⟨e, info, hfails, -, rfl⟩ | ⟨u, data, -, -, rfl⟩
  · right
    cases hfails with
    | wrcsrUnimplemented _ => exact ⟨rfl, .inl rfl⟩
    | wrcsrReadOnly _ _ _ => exact ⟨rfl, .inr rfl⟩
    | rdcsrUnimplemented _ | destroyNotCreated _ => exact ⟨rfl, rfl⟩
    | createRefused _ => rfl
    | setbwNotCreated _ | execNotCreated _ => exact .inl ⟨rfl, rfl⟩
    | setbwZero _ => exact .inr ⟨rfl, rfl⟩
    | execCapacity _ _ => exact .inr rfl
  · exact .inl rfl

/-- R115, R244: an issued word that ends with an error is answered by an error entry with that word. -/
theorem step_issue_of_error {s t : State} {w : Word} {rest : List HostMove} {r : Response}
    (hpending : s.pending = .issue w :: rest) (hstep : step s = .next t) (hresp : t.responses = s.responses ++ [r])
    (herror : r.status ≠ 0) :
    ∃ e info, t = State.raise { s with pending := rest } e info w ∧ r = ⟨e.code, info⟩ := by
  cases hdecode : decode w with
  | error e =>
    rw [step_issue_of_illegal hpending hdecode] at hstep
    cases hstep
    have hr : r = ⟨ErrorKind.illegalCommand.code, e.info⟩ := by simpa [State.illegalWord] using hresp.symm
    exact ⟨.illegalCommand, e.info, rfl, hr⟩
  | ok i =>
    rw [step_issue_of_decode hpending hdecode] at hstep
    obtain rfl := decode_eq_ok_iff.mp hdecode
    rcases exec_response_cases hstep hresp with ⟨e, info, -, ht, hr⟩ | ⟨u, data, -, -, rfl⟩
    · exact ⟨e, info, ht, hr⟩
    · exact absurd rfl herror

/-- Settles O26: an error entry writes this and nothing else. -/
theorem errorsChangeTheErrorRegistersAlone : Obligations.ErrorsChangeTheErrorRegistersAlone := by
  intro s t w rest r hpending hstep hresp herror
  obtain ⟨e, info, rfl, rfl⟩ := step_issue_of_error hpending hstep hresp herror
  rfl

/-- R246: a command word, legal or not, is answered. -/
theorem issue_answers (s : State) (w : Word) : ∃ t, s.issue w = .next t := by
  cases hdecode : decode w with
  | error e => exact ⟨s.illegalWord e w, by simp only [State.issue, hdecode]⟩
  | ok i =>
    rw [State.issue_of_decode s hdecode]
    rcases exec_answers i s with ⟨e, info, -, hexec⟩ | ⟨u, data, -, hexec⟩
    · exact ⟨_, hexec⟩
    · exact ⟨_, hexec⟩

/-- R97, R280: so is every move of the host and of the reset input. -/
theorem move_answers (s : State) (m : HostMove) : ∃ t, s.move m = .next t := by
  cases m with
  | issue w => exact issue_answers s w
  | writeCoef _ _ | writeIn _ _ | writeOut _ _ | readCoef _ | readIn _ | readOut _ | hardwareReset
  | resetDuring _ _ => exact ⟨_, rfl⟩

/-- Settles O8: a step is idle or one move. -/
theorem everyStepAnswersANextState : Obligations.EveryStepAnswersANextState := by
  refine ⟨step_idle, fun s => ?_⟩
  cases hpending : s.pending with
  | nil => exact ⟨s, step_idle s hpending⟩
  | cons m rest =>
    rw [step_pending s m rest hpending]
    exact move_answers _ m

end Sys2Proof.Machine
end

section
/-!
PROOFS, power-on (`70_reset_and_hazards.md` R282). The power-on state meets the invariant of `State.Inv`.
-/

namespace Sys2Proof.Machine

/-- Nothing has written a memory at power-on, so it is in canonical form whatever it holds (R58). -/
theorem Memory.wf_of_unwritten (size powerOn : Nat) : Memory.wf size ⟨powerOn, []⟩ = true := rfl

/-- R61, R282: without an instance only the gain and HIST have a range, and both are as CREATE leaves them. -/
theorem atPowerOn_inv (coef inp out : Nat) (moves : List HostMove) :
    State.Inv { State.atPowerOn coef inp out with pending := moves } :=
  ⟨nofun, gainMin_le_initial_gain, List.length_replicate, ⟨fun _ => rfl, nofun⟩,
    Memory.wf_of_unwritten _ _, Memory.wf_of_unwritten _ _, Memory.wf_of_unwritten _ _⟩

/-- Settles O52: the reset state is the power-on state with the free contents of log 1 and no moves. -/
theorem powerOnStateMeetsTheInvariant : Obligations.PowerOnStateMeetsTheInvariant :=
  ⟨atPowerOn_inv, atPowerOn_inv _ _ _ []⟩

end Sys2Proof.Machine
end

section
/-!
PROOFS, a reset during an EXEC (`70_reset_and_hazards.md` R280, `93_implementation_defined.md` U9). The reset itself
writes no memory, so OUT holds what the block had stored: its first symbols.
-/

namespace Sys2Proof.Machine

/-- An EXEC that passes its tests would write the symbols of its block. -/
theorem symbolsOf_exec {s : State} {imm : Half} (hpasses : s.execPasses imm.toNat) :
    s.symbolsOf (encode (.exec imm)) = (blockResult s imm.toNat).2 := by
  obtain ⟨hcreated, hcap⟩ := hpasses
  simp only [State.symbolsOf, decode_encode]
  exact if_pos (by simp [hcreated, immCount, hcap])

theorem abandon_exec_outMem {s : State} {imm : Half} (n : Nat) (hpasses : s.execPasses imm.toNat) :
    (s.abandon (encode (.exec imm)) n).outMem = blockOut s ((blockResult s imm.toNat).2.take n) := by
  rw [State.abandon, State.resetCsrs_outMem, symbolsOf_exec hpasses]

/-- Settles O13: the move is `abandon`, which stores the first symbols of the block and then resets the registers; they
are no more than all of them, for which OUT has room. -/
theorem resetDuringExecKeepsThePrefixOfItsSymbols : Obligations.ResetDuringExecKeepsThePrefixOfItsSymbols := by
  intro s imm n hinv hpasses
  have hlt := blockResult_length_lt_outCap hinv hpasses
  obtain ⟨-, -, hout⟩ := memoriesWf_of_inv hinv
  refine ⟨s.abandon (encode (.exec imm)) n, step_offer s _, readCsr_resetCsrs _, rfl, rfl, rfl,
    fun j r hj hr => ?stored, fun x hx => ?frame⟩
  all_goals rw [abandon_exec_outMem n hpasses, blockOut]
  case stored =>
    have hle : ((blockResult s imm.toNat).2.take n).length ≤ 65536 :=
      (List.length_take_le' _ _).trans (hlt.trans s.cfg.outCap.isLt).le
    have hstored := (List.getElem?_take_of_lt hj).trans hr
    have hword := storeSymbols_readWord s.outMem s.cfg.outBase 0 _ j r (Memory.wf_rising hout) hle hstored
    rwa [Nat.zero_add] at hword
  case frame =>
    refine storeSymbols_readByte_ne s.outMem s.cfg.outBase 0 _ x fun j hj => ?_
    obtain ⟨hjn, hjlen⟩ := lt_min_iff.mp (List.length_take ▸ hj)
    rw [Nat.zero_add]
    exact hx j hjn hjlen

end Sys2Proof.Machine
end

section
/-!
PROOFS, silence. While the delay line, the window and the loop filter hold zeros, a zero sample keeps them so, whatever
COEF holds; with `D` = 1 and `K2` = 2 every sample then makes one strobe, on-time and mid in turn, and the on-time ones
emit (0, 0) (`43_timing.md` R213 (a), (b), (d); `70_reset_and_hazards.md` R285).
-/

namespace Sys2Proof.Machine

/-- A synchronizer that has seen only zeros, at the strobe time `tau` and with the next strobe given by `half`. The
carrier loop may stand anywhere: a zero derotated is zero. So may `W0` and `YMID`: with `mu` = 0 and `YON` = 0 neither
enters a result (R210, R213 (d)). -/
structure Sync.Silent (tau : Word) (half : Bool) (st : Sync) : Prop where
  dph  : st.dph = 0
  hist : ∀ c ∈ st.hist, c = Cplx.zero
  w1   : st.w1 = Cplx.zero
  w2   : st.w2 = Cplx.zero
  w3   : st.w3 = Cplx.zero
  tint : st.tint = 0
  tv   : st.tv = 0
  yon  : st.yon = Cplx.zero
  tau  : st.tau = tau
  half : st.half = half

/-- The symbols of one strobe of a silent synchronizer. -/
def silentSymbols (half : Bool) : List Cplx := if half then [] else [Cplx.zero]

/-- R283: a new instance is silent, and its first strobe is an on-time one. -/
theorem initial_silent : Sync.initial.Silent 0 false :=
  ⟨rfl, fun _ hc => List.eq_of_mem_replicate hc, rfl, rfl, rfl, rfl, rfl, rfl, rfl, rfl⟩

/-! ## The matched filter -/

section filter
variable {hist : List Cplx} (h : ∀ c ∈ hist, c = Cplx.zero)
include h

theorem histAt_of_forall_zero (j : Nat) : histAt hist j = Cplx.zero := by
  rw [histAt, List.getD_eq_getElem?_getD]
  cases hj : hist[j]? with
  | none => rfl
  | some c => exact h c (List.mem_of_getElem? hj)

theorem shiftHist_of_forall_zero (l : Nat) : ∀ c ∈ shiftHist l hist Cplx.zero, c = Cplx.zero := by
  intro c hc
  rcases List.mem_cons.mp hc with hnew | hold
  · exact hnew
  · rcases List.mem_append.mp hold with hkept | hbeyond
    · exact h c (List.mem_of_mem_take hkept)
    · exact h c (List.mem_of_mem_drop hbeyond)

/-- R192: an empty delay line sums to 0 under any taps. -/
theorem firSum_of_forall_zero (coef : Memory) {part : Cplx → Half} (hpart : part Cplx.zero = 0) (l : Nat) :
    firSum coef part l hist = 0 := by
  simp only [firSum, histAt_of_forall_zero h, hpart, sext16_zero, mul_zero]
  simp

theorem fir_of_forall_zero (coef : Memory) (l : Nat) : fir coef l hist = Cplx.zero := by
  rw [fir, firSum_of_forall_zero h coef rfl, firSum_of_forall_zero h coef rfl]
  rfl

end filter

/-! ## The timing stage -/

/-- R213 (d): with `YON` = (0, 0) the timing error is 0 whatever the interpolant. -/
theorem timingError_of_yon_zero {st : Sync} (y : Cplx) (h : st.yon = Cplx.zero) : timingError st y = 0 := by
  simp only [timingError, h, Cplx.zero, sext16_zero, zero_mul, add_zero]

theorem clamp_vMax_zero (a : Active) : clamp 0 (-a.vMax) a.vMax = 0 :=
  clamp_of_mem 0 _ _ (neg_nonpos.mpr (vMax_nonneg a)) (vMax_nonneg a)

/-- R208, R213 (b): without error the loop filter coasts at 0. -/
theorem loopInt_zero (a : Active) : loopInt a 0 0 = 0 := by
  simp [loopInt, asr, sext32, clamp_vMax_zero, word32]

theorem loopOut_zero (a : Active) : loopOut a 0 0 = 0 := by
  simp [loopOut, asr, sext32, clamp_vMax_zero, word32]

section silent
variable {a : Active} {st : Sync} {tau : Word} {half : Bool}

/-- R205 to R207: a strobe on a zero interpolant stores zeros, and the other kind is next. -/
theorem strobe_silent (h : st.Silent tau half) :
    (strobe a st Cplx.zero).1.Silent tau (!half) ∧ (strobe a st Cplx.zero).2 = silentSymbols half := by
  cases half with
  | false =>
    rw [strobe_onTime a st _ h.half, carrierSymbol, Cplx.zero, derotate_zero]
    exact ⟨{ h with yon := rfl, half := rfl }, rfl⟩
  | true =>
    rw [strobe_mid a st _ h.half, mid_eq, timingError_of_yon_zero _ h.yon, h.tint, loopInt_zero, loopOut_zero]
    exact ⟨{ h with tint := rfl, tv := rfl, half := rfl }, rfl⟩

/-- R203: with `TV` = 0 a pass at `TAU` = 0 schedules the next strobe one nominal step on. -/
theorem strobePass_silent (h : st.Silent 0 half) :
    (strobePass a st).1.Silent a.stepNom (!half) ∧ (strobePass a st).2 = silentSymbols half := by
  have hinterp : farrow st (muOf st.tau) = Cplx.zero := by
    rw [h.tau]
    exact farrow_zero h.w1
  obtain ⟨hnext, hsymbols⟩ := strobe_silent (a := a) h
  rw [strobePass_fst, strobePass_snd, hinterp, hnext.tau, hnext.tv]
  refine ⟨{ hnext with tau := ?_ }, hsymbols⟩
  simp [zext, sext32, word32]

/-- AGC and the shift of the delay line touch nothing else that silence is about. -/
theorem shifted_silent (x : Cplx) (h : st.Silent tau half)
    (hhist : ∀ c ∈ (st.shifted a x).hist, c = Cplx.zero) : (st.shifted a x).Silent tau half :=
  { h with hist := hhist }

variable (hstep : a.stepNom = BitVec.ofNat 32 Config.oneT)
include hstep

/-- R213 (a): with `K2` = 2 the nominal step is `ONE_T`, so a call of TIMING makes one pass and leaves `TAU` at 0. -/
theorem timing_silent (h : st.Silent 0 half) :
    (timing a st Cplx.zero).1.Silent 0 (!half) ∧ (timing a st Cplx.zero).2 = silentSymbols half := by
  have hwindow : (shiftWindow st Cplx.zero).Silent 0 half := { h with w1 := h.w2, w2 := h.w3, w3 := rfl }
  obtain ⟨hnext, hsymbols⟩ := strobePass_silent (a := a) hwindow
  have hlt : (shiftWindow st Cplx.zero).tau.toNat < Config.oneT := by
    rw [hwindow.tau]
    decide
  have hge : Config.oneT ≤ (strobePass a (shiftWindow st Cplx.zero)).1.tau.toNat := by
    rw [hnext.tau, hstep]
    decide
  rw [timing_fst, timing_snd, strobeLoop_succ_of_lt a 1 _ hlt, strobeLoop_of_ge a 1 _ hge, hsymbols]
  refine ⟨{ hnext with tau := ?_ }, List.append_nil _⟩
  dsimp only
  rw [hnext.tau, hstep]
  simp [zext, word32, Config.oneT]

/-! ## Samples and blocks -/

variable (coef : Memory) (hdecim : a.decim = 1)
include hdecim

theorem runSample_silent (h : st.Silent 0 half) :
    (runSample a coef st Cplx.zero).1.Silent 0 (!half) ∧
      (runSample a coef st Cplx.zero).2 = silentSymbols half := by
  have hagc : (agc st Cplx.zero).2 = Cplx.zero := by
    rw [agc_snd, Cplx.zero, agcOutput_zero]
  have hhist : ∀ c ∈ (st.shifted a Cplx.zero).hist, c = Cplx.zero := by
    rw [Sync.shifted, hagc]
    exact shiftHist_of_forall_zero h.hist _
  obtain ⟨hnext, hsymbols⟩ := timing_silent hstep (shifted_silent Cplx.zero h hhist)
  have hdph : nextDph a 0 = 0 := by
    rw [nextDph, hdecim]
    decide
  rw [runSample_output a coef _ h.dph, fir_of_forall_zero hhist]
  exact ⟨{ hnext with dph := hdph }, hsymbols⟩

/-- R213 (a), (b): every second sample of a silent block gives a symbol, from the first on when an on-time strobe is
next. -/
theorem runBlock_silent (n : Nat) (h : st.Silent 0 half) :
    (runBlock a coef st (List.replicate n Cplx.zero)).2 =
      List.replicate ((n + 1 - half.toNat) / 2) Cplx.zero := by
  induction n generalizing st half with
  | zero => cases half <;> rfl
  | succ n ih =>
    obtain ⟨hnext, hsymbols⟩ := runSample_silent hstep coef hdecim h
    rw [List.replicate_succ, runBlock_cons, hsymbols, ih hnext]
    cases half with
    | false =>
      have hcount : (n + 1 + 1 - false.toNat) / 2 = (n + 1 - true.toNat) / 2 + 1 := by
        simp only [Bool.toNat_false, Bool.toNat_true]
        omega
      rw [hcount, List.replicate_succ]
      rfl
    | true => rfl

end silent

/-! ## The block of R285 -/

/-- A block of words 0 in IN is a block of zero samples. -/
theorem blockSamples_of_readWord_zero {s : State} {n : Nat}
    (h : ∀ i < n, s.inMem.readWord ((s.cfg.inBase.toNat + i) % 65536) = 0) :
    blockSamples s n = List.replicate n Cplx.zero := by
  refine List.eq_replicate_iff.mpr ⟨blockSamples_length s n, fun c hc => ?_⟩
  obtain ⟨i, hi, rfl⟩ := List.mem_map.mp hc
  rw [sampleAt, h i (List.mem_range.mp hi)]
  rfl

/-- Settles O51: the reset configuration has `D` = 1 and `K2` = 2, and CREATE leaves a silent synchronizer. -/
theorem silentBlockOfEightGivesFourZeroSymbols : Obligations.SilentBlockOfEightGivesFourZeroSymbols := by
  intro s hcfg hzero
  have hcause : createCause s.cfg = 0 := hcfg ▸ (by decide)
  have hsamples : blockSamples (s.install.respond 0) 8 = List.replicate 8 Cplx.zero := by
    refine blockSamples_of_readWord_zero fun i hi => ?_
    have haddr : (s.cfg.inBase.toNat + i) % 65536 = i := by
      have hbase : s.cfg.inBase.toNat = 0 := hcfg ▸ rfl
      omega
    exact haddr.symm ▸ hzero i hi
  have hact : (s.install.respond 0).act = Staged.reset.activate := by
    rw [State.respond_act, State.install_act, hcfg]
    rfl
  have hsymbols : (blockResult (s.install.respond 0) 8).2 = List.replicate 4 Cplx.zero := by
    rw [blockResult, hsamples, hact]
    exact runBlock_silent rfl _ rfl 8 initial_silent
  have hpasses : (s.install.respond 0).execPasses (8 : Half).toNat := by
    refine ⟨rfl, ?_⟩
    rw [hact, State.respond_cfg, State.install_cfg, hcfg]
    decide
  have hcount : BitVec.ofNat 32 (blockResult (s.install.respond 0) (8 : Half).toNat).2.length = 4 :=
    congrArg (fun symbols : List Cplx => BitVec.ofNat 32 symbols.length) hsymbols
  refine ⟨_, _, exec_of_succeeds (.create hcause), exec_of_succeeds (.exec hpasses), ?_, hsymbols⟩
  rw [State.respond_responses, State.afterBlock_responses, State.respond_responses, State.install_responses, hcount,
    List.append_assoc]
  rfl

end Sys2Proof.Machine
end
